-- ==== Sys2Proof/Word.lean ====
section
/-! DEFINITION. The word types of the block: 64-bit registers and entropy words, 65-bit command words, 34-bit
response words (00_scope.md R6, R7). -/

namespace Sys2Proof

/-- A 64-bit value: a binary64 pattern (R26), an entropy word (R46) or the reservoir buffer (R13). -/
abbrev Word := BitVec 64

/-- A command word, `CMD` (R43): bit 64 is `op`, bits 63..0 are `arg`. -/
abbrev CmdWord := BitVec 65

/-- A response word, `RSP` (R44): bits 33..32 are `status`, bits 31..0 are `data`. -/
abbrev RspWord := BitVec 34

end Sys2Proof
end

