-- ==== Sys2Proof/Syntax.lean ====
section
/-! DEFINITION. The eight instructions of 30_encoding.md R42 (two host commands, six micro-operations), one constructor
for each row of the opcode table, and the encoded words of its three formats. -/

namespace Sys2Proof

/-- The operations of R42. Only `CREATE` has an operand (R48); `NEXT` ignores `CMD[63:0]` (R43, R51) and the
micro-operations' operands are the registers. -/
inductive Instr where
  /-- `CREATE arg` (R54): validate a probability, construct a generator. -/
  | create (arg : Word)
  /-- `NEXT` (R61): produce one 32-bit biased word. -/
  | next
  /-- `EMIT1` (R65): emit bit 1, rescale by `P_RECIP`. -/
  | emit1
  /-- `EMIT0` (R66): emit bit 0, rescale by `Q_RECIP`. -/
  | emit0
  /-- `NARROW` (R67): take one fresh bit, halve the interval. -/
  | narrow
  /-- `WORD_DONE` (R69): persist the interval, respond with the word. -/
  | wordDone
  /-- `NEXT_BIT` (R76): take one buffered uniform bit. -/
  | nextBit
  /-- `REFILL` (R77): load 64 fresh bits. -/
  | refill
  deriving DecidableEq, Repr

/-- The column `format` of the opcode table: over which word a row's match and mask stand (30_encoding.md, opening). -/
inductive Format where
  /-- `C`: the 65-bit command word (R43). -/
  | c
  /-- `SEL`: the 3-bit selector `{DONE, LT, GT}` (R49). -/
  | sel
  /-- `EMPTY`: the 1-bit selector of the reservoir (R50). -/
  | empty
  deriving DecidableEq, Repr

/-- The width of a format's word in bits (R43, R49, R50; R52: there are no other widths). -/
def Format.width : Format → Nat
  | .c => 65
  | .sel => 3
  | .empty => 1

/-- A raw word offered to the decoder, before any check: a format and a number. -/
structure Encoded where
  format : Format
  value  : Nat
  deriving DecidableEq, Repr

end Sys2Proof
end

