-- ==== Sys2Proof/WellFormed.lean ====
section
/-! DEFINITION. What well-formed means: a raw word fits its format's width (R52, R37); every instruction is well-formed,
because every operand value is admitted (R47, R48, R51). -/

namespace Sys2Proof

/-- A raw word is well-formed when it has no bit above its format's width. -/
def Encoded.wf (e : Encoded) : Bool :=
  decide (e.value < 2 ^ e.format.width)

/-- R48: all 2^64 patterns are accepted as operands of `CREATE`; R51: there are no reserved, illegal, hint or custom
encodings. So there is no ill-formed instruction. -/
def Instr.wf : Instr → Bool
  | .create _ => true
  | .next => true
  | .emit1 => true
  | .emit0 => true
  | .narrow => true
  | .wordDone => true
  | .nextBit => true
  | .refill => true

end Sys2Proof
end

