-- ==== Sys2Proof/Decode.lean ====
section
/-! DEFINITION. The decoder of 30_encoding.md (R43, R47 to R52), total on every raw word and rejecting by name; after it
the encoder, the opcode table's match and mask rows, and the host's numbering of a row's bits. -/

namespace Sys2Proof

/-- Why the decoder refuses a raw word. -/
inductive DecodeError where
  /-- The number has a bit above the format's width: no such word exists on the port or selector (R52). -/
  | wordTooWide (format : Format)
  deriving DecidableEq, Repr

/-- R47: the one-bit test of `CMD[64]`; R48: the operand is `CMD[63:0]` as it stands. -/
def decodeCommand (w : CmdWord) : Instr :=
  if w.getLsbD 64 then .next else .create (w.extractLsb' 0 64)

/-- R49: the first matching row over `SEL = {DONE, LT, GT}`. -/
def decodeSel (w : BitVec 3) : Instr :=
  if w.getLsbD 2 then .wordDone
  else if w.getLsbD 1 then .emit1
  else if w.getLsbD 0 then .emit0
  else .narrow

/-- R50: the operation with which the reservoir begins: `REFILL` when `EMPTY = 1`, else the take of `NEXT_BIT`. -/
def decodeEmpty (w : BitVec 1) : Instr :=
  if w.getLsbD 0 then .refill else .nextBit

/-- The decoder: total on every raw word; a word too wide for its format is refused by name. -/
def decode (e : Encoded) : Except DecodeError Instr :=
  if e.wf then
    .ok (match e.format with
      | .c => decodeCommand (BitVec.ofNat 65 e.value)
      | .sel => decodeSel (BitVec.ofNat 3 e.value)
      | .empty => decodeEmpty (BitVec.ofNat 1 e.value))
  else .error (.wordTooWide e.format)

/-- R43: the command word `{op, arg}`. -/
def commandWord (op : BitVec 1) (arg : Word) : CmdWord := op ++ arg

/-- The word of each instruction, from the tables of R43, R49 and R50. Bits a row leaves free (`x` of R49,
`CMD[63:0]` of `NEXT`) are zero: R51 (a), a host should send zero (log 14). -/
def encode : Instr → Encoded
  | .create arg => { format := .c, value := (commandWord 0#1 arg).toNat }
  | .next => { format := .c, value := (commandWord 1#1 0#64).toNat }
  | .emit1 => { format := .sel, value := 0b010 }
  | .emit0 => { format := .sel, value := 0b001 }
  | .narrow => { format := .sel, value := 0b000 }
  | .wordDone => { format := .sel, value := 0b100 }
  | .nextBit => { format := .empty, value := 0b0 }
  | .refill => { format := .empty, value := 0b1 }

/-- One row of opcode_table.json: the bits under `mask` equal `pattern` (the table's `match`). -/
structure TableRow where
  format  : Format
  mask    : Nat
  pattern : Nat
  deriving DecidableEq, Repr

/-- The opcode table's row of each instruction. -/
def tableRow : Instr → TableRow
  | .create _ => { format := .c, mask := 0x10000000000000000, pattern := 0x00000000000000000 }
  | .next => { format := .c, mask := 0x10000000000000000, pattern := 0x10000000000000000 }
  | .emit1 => { format := .sel, mask := 0b110, pattern := 0b010 }
  | .emit0 => { format := .sel, mask := 0b111, pattern := 0b001 }
  | .narrow => { format := .sel, mask := 0b111, pattern := 0b000 }
  | .wordDone => { format := .sel, mask := 0b100, pattern := 0b100 }
  | .nextBit => { format := .empty, mask := 0b0, pattern := 0b0 }
  | .refill => { format := .empty, mask := 0b1, pattern := 0b1 }

/-- A raw word lies in a row. -/
def TableRow.admits (r : TableRow) (e : Encoded) : Bool :=
  r.format == e.format && (e.value &&& r.mask) == r.pattern

/-- R50: what `NEXT_BIT` runs for each value of `EMPTY`: `REFILL` and then the take, or the take alone. -/
def reservoirPlan (w : BitVec 1) : List Instr :=
  if w.getLsbD 0 then [.refill, .nextBit] else [.nextBit]

/-- The format the host's `nbits` names (log 9): more than one byte is a command word; one byte, or two to eight bits,
is the selector `SEL`; a single bit is `EMPTY`. -/
def formatOfBits (nbits : Nat) : Format :=
  if 8 < nbits then .c else if nbits = 1 then .empty else .sel

/-- The instruction the decoder reads from a table row's word. -/
def decodeTableWord (nbits w : Nat) : Option Instr :=
  match decode { format := formatOfBits nbits, value := w } with
  | .ok i => some i
  | .error _ => none

end Sys2Proof
end

