-- ==== Sys2Proof/Config.lean ====
section
/-! DEFINITION. What is fixed for one block (the parameters of 00_scope.md R6) and the free values: opaque constants
without a body, one for each value the spec leaves open. -/

namespace Sys2Proof

/-- `WORD_BITS` (R6): biased bits in one output word. -/
def Config.wordBits : Nat := 32

/-- `ENT_BITS` (R6): bits of one entropy word, and the capacity of the reservoir. -/
def Config.entBits : Nat := 64

/-- `CMD_BITS` (R6). -/
def Config.cmdBits : Nat := 65

/-- `RSP_BITS` (R6). -/
def Config.rspBits : Nat := 34

/-- The four arithmetic operations of R27. -/
inductive FOp where
  | add | sub | mul | div
  deriving DecidableEq, Repr

/-- FREE VALUE (log 2). The sign of the quiet NaN an operation produces: R27 leaves it open (93 U3, `any value`). -/
opaque Config.nanSign : FOp → Word → Word → Bool

/-- FREE VALUE (log 2). The payload below the quiet bit of the NaN an operation produces: R27 leaves it open
(93 U3, `any value`). -/
opaque Config.nanPayload : FOp → Word → Word → BitVec 51

/-- FREE VALUE (log 3). The entropy stream `U` (R24, R33): the word with index `n`, where no word has been named
by the state. R33: the rules give a meaning to every stream. -/
opaque Config.uniformWord : Nat → Word

/-- The twelve registers that hold no value after `RESET` (R93). -/
inductive RegName where
  | p | low | high | rsvBits | rsvCnt | wlow | whigh | pRecip | qRecip | result | nemit | op
  deriving DecidableEq, Repr

/-- FREE VALUE (log 4). What a register that R93 says "holds no value" holds after the `k`-th `RESET` event;
a narrower register takes its low bits. -/
opaque Config.unwritten : RegName → Nat → Word

end Sys2Proof
end

