-- ==== Sys2Proof/Machine/Float.lean ====
section
/-! DEFINITION. IEEE 754 binary64, as 10_state.md R26 to R28 give it: the layout of a pattern and its value, the four
operations with one correct rounding each, and the three comparisons. Every finite value is a whole number of units of
`2^-1074`, so each operation is computed exactly on integers and rounded once. -/

namespace Sys2Proof.Machine

/-- `F_ZERO` (R8): `+0.0`. -/
def fZero : Word := 0x0000000000000000#64

/-- `F_HALF` (R8): 0.5. -/
def fHalf : Word := 0x3FE0000000000000#64

/-- `F_ONE` (R8): 1.0. -/
def fOne : Word := 0x3FF0000000000000#64

/-- `b[63]` (R26). -/
def signBit (b : Word) : Bool := b.getLsbD 63

/-- `b[62:52]` (R26). -/
def expField (b : Word) : BitVec 11 := b.extractLsb' 52 11

/-- `b[51:0]` (R26). -/
def fracField (b : Word) : BitVec 52 := b.extractLsb' 0 52

/-- R26: `e = 2047`, `f ≠ 0`. -/
def isNaN (b : Word) : Bool := expField b == 2047#11 && fracField b != 0#52

/-- R26: `e = 2047`, `f = 0`. -/
def isInf (b : Word) : Bool := expField b == 2047#11 && fracField b == 0#52

/-- The magnitude of a finite pattern in units of `2^-1074` (R26): `f` for a zero or a subnormal,
`(2^52 + f) * 2^(e-1)` for a normal value. -/
def magnitude (b : Word) : Nat :=
  if expField b = 0#11 then (fracField b).toNat
  else (2 ^ 52 + (fracField b).toNat) * 2 ^ ((expField b).toNat - 1)

/-- How many units of `2^-1074` make 1. -/
@[irreducible] def unitsInOne : Nat := 2 ^ 1074

/-- The value of a pattern (R26): not a number, an infinity, or a sign and a whole number of units of `2^-1074`. -/
inductive FVal where
  | nan
  | inf (neg : Bool)
  | fin (neg : Bool) (units : Nat)
  deriving DecidableEq, Repr

/-- R26, case by case. -/
def valueOf (b : Word) : FVal :=
  if isNaN b then .nan
  else if isInf b then .inf (signBit b)
  else .fin (signBit b) (magnitude b)

/-- A signed number of units. -/
def signedUnits (neg : Bool) (units : Nat) : Int := if neg then -(units : Int) else units

/-- The 63 low bits of `+infinity`. -/
def infMagnitude : Nat := 0x7FF0000000000000

/-- A pattern from its sign and its 63 low bits. -/
def packSign (neg : Bool) (low63 : Nat) : Word :=
  BitVec.ofNat 64 ((if neg then 2 ^ 63 else 0) + low63)

/-- Round the non-negative number `num / den` of units to the 63 low bits of the nearest pattern, ties to even (R27).
With `k` the number of low bits a 53-bit significand cannot keep, the rounded significand `m` has weight `2^k`
units, and `k * 2^52 + m` is the pattern, a carry out of `m` included; what lies past the largest finite pattern is
`+infinity` (R27, overflow). -/
def roundUnits (num den : Nat) : Nat :=
  let k := (num / den).log2 - 52
  let d := den * 2 ^ k
  let m := num / d
  let r := num % d
  let m' := if d < 2 * r || (2 * r == d && m % 2 == 1) then m + 1 else m
  min (k * 2 ^ 52 + m') infMagnitude

/-- The pattern nearest to `±num/den` units. -/
def roundTo (neg : Bool) (num den : Nat) : Word := packSign neg (roundUnits num den)

/-- An infinity (R26). -/
def infinity (neg : Bool) : Word := packSign neg infMagnitude

/-- The quiet NaN of an invalid operation or a NaN operand (R27). Its sign and payload are free values (log 2). -/
def quietNaN (o : FOp) (a b : Word) : Word :=
  BitVec.ofBool (Config.nanSign o a b) ++ 2047#11 ++ 1#1 ++ Config.nanPayload o a b

/-- The sum of two values, `nan` standing for the invalid result. An exact zero sum is `+0.0` unless both operands
are negative (R27, IEEE 754; PRESUMED, log 11). -/
def addValues (o : FOp) (a b : Word) : FVal → FVal → Word
  | .nan, _ => quietNaN o a b
  | _, .nan => quietNaN o a b
  | .inf s, .inf t => if s = t then infinity s else quietNaN o a b
  | .inf s, .fin _ _ => infinity s
  | .fin _ _, .inf t => infinity t
  | .fin s m, .fin t n =>
    let v := signedUnits s m + signedUnits t n
    roundTo (if v = 0 then s && t else decide (v < 0)) v.natAbs 1

/-- The value with its sign changed. -/
def FVal.negate : FVal → FVal
  | .nan => .nan
  | .inf s => .inf (!s)
  | .fin s m => .fin (!s) m

/-- `fadd(a, b)` (R8, R27). -/
def fadd (a b : Word) : Word := addValues .add a b (valueOf a) (valueOf b)

/-- `fsub(a, b)` (R8, R27). -/
def fsub (a b : Word) : Word := addValues .sub a b (valueOf a) (valueOf b).negate

/-- `fmul(a, b)` (R8, R27). -/
def fmul (a b : Word) : Word :=
  match valueOf a, valueOf b with
  | .nan, _ => quietNaN .mul a b
  | _, .nan => quietNaN .mul a b
  | .inf s, .inf t => infinity (s ^^ t)
  | .inf s, .fin t n => if n = 0 then quietNaN .mul a b else infinity (s ^^ t)
  | .fin s m, .inf t => if m = 0 then quietNaN .mul a b else infinity (s ^^ t)
  | .fin s m, .fin t n => roundTo (s ^^ t) (m * n) unitsInOne

/-- `fdiv(a, b)` (R8, R27). -/
def fdiv (a b : Word) : Word :=
  match valueOf a, valueOf b with
  | .nan, _ => quietNaN .div a b
  | _, .nan => quietNaN .div a b
  | .inf _, .inf _ => quietNaN .div a b
  | .inf s, .fin t _ => infinity (s ^^ t)
  | .fin s _, .inf t => packSign (s ^^ t) 0
  | .fin s m, .fin t n =>
    if n = 0 then (if m = 0 then quietNaN .div a b else infinity (s ^^ t))
    else roundTo (s ^^ t) (m * unitsInOne) n

/-- `flt(a, b)` (R28): neither is a NaN and the value of `a` is less than the value of `b`. -/
def flt (a b : Word) : Bool :=
  match valueOf a, valueOf b with
  | .nan, _ => false
  | _, .nan => false
  | .inf s, .inf t => s && !t
  | .inf s, .fin _ _ => s
  | .fin _ _, .inf t => !t
  | .fin s m, .fin t n => decide (signedUnits s m < signedUnits t n)

/-- `fgt(a, b)` (R28) is `flt(b, a)`. -/
def fgt (a b : Word) : Bool := flt b a

/-- `feq(a, b)` (R28): neither is a NaN and the values are equal; `+0.0` and `-0.0` are. -/
def feq (a b : Word) : Bool :=
  match valueOf a, valueOf b with
  | .nan, _ => false
  | _, .nan => false
  | .inf s, .inf t => s == t
  | .inf _, .fin _ _ => false
  | .fin _ _, .inf _ => false
  | .fin s m, .fin t n => decide (signedUnits s m = signedUnits t n)

end Sys2Proof.Machine
end

