-- ==== Sys2Proof/Machine/State.lean ====
section
/-! DEFINITION. The state: the fourteen registers of 10_state.md R10, the ghost index of R24, the three ports of R31 and
the reset event of R92 as plain data, and the model's own fields. -/

namespace Sys2Proof.Machine

/-- `PHASE` (R23). -/
inductive Phase where
  /-- No command is in progress. -/
  | idle
  /-- A `NEXT` is inside the interval_narrowing_loop. -/
  | run
  deriving DecidableEq, Repr

/-- `OP` (R22): the command accepted last. -/
inductive Op where
  | create
  | next
  deriving DecidableEq, Repr

/-- Why the machine stops. -/
inductive Fault where
  /-- Raised by `REFILL`, and by `NEXT_BIT` and `NARROW` when they need one, while the entropy source does not answer
  (R102: "A model gives `REFILL` a step only when the stream has a next word"; 93 U13 `stuck`; log 6). Safe: the model stops
  where the block waits. -/
  | entropySourceSilent
  deriving DecidableEq, Repr

/-- Why an instruction has no meaning. -/
inductive Refusal where
  /-- Raised by an arm of `exec` whose instruction has no meaning yet. Safe: nothing is proved of it. No arm raises it now. -/
  | notModelled (mnemonic : String)
  deriving DecidableEq, Repr

/-- Everything the block holds, and what stands at its ports. -/
structure State where
  /-- `P` (R11), binary64. -/
  p : Word
  /-- `LOW` (R12), binary64. -/
  low : Word
  /-- `HIGH` (R12), binary64. -/
  high : Word
  /-- `RSV_BITS` (R13), the buffered uniform bits. -/
  rsvBits : Word
  /-- `RSV_CNT` (R13), how many of them are unconsumed. -/
  rsvCnt : BitVec 7
  /-- `WLOW` (R15), binary64. -/
  wlow : Word
  /-- `WHIGH` (R15), binary64. -/
  whigh : Word
  /-- `P_RECIP` (R16), binary64. -/
  pRecip : Word
  /-- `Q_RECIP` (R16), binary64. -/
  qRecip : Word
  /-- `RESULT` (R17), the output word so far. -/
  result : BitVec 32
  /-- `NEMIT` (R18), the bits emitted so far. -/
  nemit : BitVec 6
  /-- `VALID` (R19): a generator exists. -/
  valid : Bool
  /-- `PHASE` (R23). -/
  phase : Phase
  /-- `OP` (R22). -/
  op : Op
  /-- `ENT_IDX` (R24), ghost: how many words have been drawn. -/
  entIdx : Nat
  /-- The model's own (log 5): the bit the last `NEXT_BIT` returned (R76), on its way to the `NARROW` that asked for it. -/
  bit : Bool
  /-- The command port (R31) and the host behind it: the word offered now, then those the host offers after it (R53;
  log 7). -/
  cmdPort : List CmdWord
  /-- The response port (R31): every response sent so far, oldest first (log 7). -/
  rspPort : List RspWord
  /-- The entropy port (R31): the words the source will answer with next, as far as they are known; after them the
  source answers with free values (log 3). -/
  entPort : List Word
  /-- The source does not answer now (R102; log 6). -/
  entSilent : Bool
  /-- `RESET` (R92) is asserted and takes effect in the next step (log 13). -/
  resetPending : Bool
  /-- The model's own (log 4): how many `RESET` events have happened; the index of their free values. -/
  freeIdx : Nat
  deriving DecidableEq, Repr

/-- The state right after reset (R93): `VALID = 0`, `PHASE = IDLE`, `ENT_IDX = 0` (R24). Every other register holds no
value in the spec; it is zero here (DESIGN CHOICE, log 1; that none of them is ever read is a statement of its own).
Nothing waits at the ports. -/
def State.reset : State where
  p := 0
  low := 0
  high := 0
  rsvBits := 0
  rsvCnt := 0
  wlow := 0
  whigh := 0
  pRecip := 0
  qRecip := 0
  result := 0
  nemit := 0
  valid := false
  phase := .idle
  op := .create
  entIdx := 0
  bit := false
  cmdPort := []
  rspPort := []
  entPort := []
  entSilent := false
  resetPending := false
  freeIdx := 0

end Sys2Proof.Machine
end

