-- ==== Sys2Proof/Machine/Operands.lean ====
section
/-! DEFINITION. The operand forms: the fields of the command word (R43), the response word and its status codes (R44,
R45), and the validity test of the probability operand (R55). -/

namespace Sys2Proof.Machine

/-- `CMD[64]` as `OP` records it (R60). -/
def opOfCommand (w : CmdWord) : Op := if w.getLsbD 64 then .next else .create

/-- `CMD[63:0]` (R43, R48). -/
def argOfCommand (w : CmdWord) : Word := w.extractLsb' 0 64

/-- `ST_OK` (R45). -/
def stOk : BitVec 2 := 0b00#2

/-- `ST_INVALID_PROBABILITY` (R45). -/
def stInvalidProbability : BitVec 2 := 0b01#2

/-- `ST_NOT_CONSTRUCTED` (R45). -/
def stNotConstructed : BitVec 2 := 0b10#2

/-- `RSP = {status, data}` (R44). -/
def rspWord (status : BitVec 2) (data : BitVec 32) : RspWord := status ++ data

/-- `RSP[33:32]` (R44). -/
def statusOf (r : RspWord) : BitVec 2 := r.extractLsb' 32 2

/-- `RSP[31:0]` (R44). -/
def dataOf (r : RspWord) : BitVec 32 := r.extractLsb' 0 32

/-- R55: the sign bit is set (a test of the bit, so `-0.0` fails), or the value is greater than 1.0, or it is a NaN. -/
def invalidProbability (arg : Word) : Bool :=
  signBit arg || fgt arg fOne || isNaN arg

end Sys2Proof.Machine
end

