-- ==== Sys2Proof/Machine/Flags.lean ====
section
/-! DEFINITION. The combinational conditions. The block keeps no condition codes (R20); what selects a micro-operation are
the three conditions of R49 and the one of R50. -/

namespace Sys2Proof.Machine

/-- `DONE = (NEMIT == 32)` (R49). -/
def doneFlag (s : State) : Bool := s.nemit.toNat == Config.wordBits

/-- `LT = flt(WHIGH, P)` (R49). -/
def ltFlag (s : State) : Bool := flt s.whigh s.p

/-- `GT = fgt(WLOW, P)` (R49). -/
def gtFlag (s : State) : Bool := fgt s.wlow s.p

/-- `SEL = {DONE, LT, GT}` (R49). -/
def selector (s : State) : BitVec 3 :=
  BitVec.ofBool (doneFlag s) ++ BitVec.ofBool (ltFlag s) ++ BitVec.ofBool (gtFlag s)

/-- `EMPTY = (RSV_CNT == 0)` (R50). -/
def emptyFlag (s : State) : Bool := s.rsvCnt == 0#7

end Sys2Proof.Machine
end

