-- ==== Sys2Proof/Machine/Ops.lean ====
section
/-! DEFINITION. The named operations over the registers and ports: accepting a command, responding (and with it both
error responses, which are all the block has of exceptions), drawing entropy, the reservoir, emitting a bit, the `RESET`
event, what the outside world can do, and the selection of the next instruction. -/

namespace Sys2Proof.Machine

/-- The outcome of one instruction. -/
abbrev Result := Host.Outcome State Fault Refusal

/-- An operation that may stop, as an outcome. -/
def toResult : Except Fault State → Result
  | .ok s => .next s
  | .error f => .fault f

/-- R60: the port takes the offered command and `OP` records which it is, whatever becomes of the command (DEDUCED,
log 10). -/
def State.accept (s : State) (op : Op) : State :=
  { s with op := op, cmdPort := s.cmdPort.tail }

/-- `respond(st, data)` (R34): one word on the response port, and `PHASE <- IDLE` in the same step. -/
def State.respond (s : State) (status : BitVec 2) (data : BitVec 32) : State :=
  { s with rspPort := s.rspPort ++ [rspWord status data], phase := .idle }

/-- `raise InvalidProbability` (R8, R82): `VALID <- 0`, then the response; nothing else is saved or changed (R87). -/
def State.raiseInvalidProbability (s : State) : State :=
  { s with valid := false }.respond stInvalidProbability 0#32

/-- `raise NotConstructed` (R8, R83): the response and no register write. -/
def State.raiseNotConstructed (s : State) : State :=
  s.respond stNotConstructed 0#32

/-- `U[ENT_IDX + n]` (R24): the `n`-th word the source will answer with from now on, a named one or a free value. -/
def State.upcomingWord (s : State) (n : Nat) : Word :=
  (s.entPort[n]?).getD (Config.uniformWord (s.entIdx + n))

/-- The state after one transaction on the entropy port (R33): the word is consumed, `ENT_IDX` counts it. -/
def State.consumeWord (s : State) : State :=
  { s with entPort := s.entPort.tail, entIdx := s.entIdx + 1 }

/-- `REFILL` (R77): `RSV_BITS <- EntRead()`, `RSV_CNT <- 64`. With a silent source it has no step (R102). -/
def State.refillReservoir (s : State) : Except Fault State :=
  if s.entSilent then .error .entropySourceSilent
  else .ok { s.consumeWord with rsvBits := s.upcomingWord 0, rsvCnt := BitVec.ofNat 7 Config.entBits }

/-- The take of `NEXT_BIT` (R76): the least-significant buffered bit, then a shift right and a decrement. -/
def State.takeBit (s : State) : State :=
  { s with bit := s.rsvBits.getLsbD 0, rsvBits := s.rsvBits >>> 1, rsvCnt := s.rsvCnt - 1#7 }

/-- `NEXT_BIT` (R76): refill first when the reservoir is empty, then take, in one operation (90 C1). -/
def State.takeFreshBit (s : State) : Except Fault State :=
  if emptyFlag s then
    match s.refillReservoir with
    | .ok s' => .ok s'.takeBit
    | .error f => .error f
  else .ok s.takeBit

/-- The common part of `EMIT1` and `EMIT0` (R17, R18, R65, R66): append the bit to `RESULT`, count it, and write the
rescaled interval. -/
def State.emit (s : State) (b : Bool) (wlow whigh : Word) : State :=
  { s with
    result := (s.result <<< 1) ||| (BitVec.ofBool b).setWidth 32
    nemit := s.nemit + 1#6
    wlow := wlow
    whigh := whigh }

/-- `mid = 0.5*(low+high)` (R67): the sum rounded, then halved. -/
def halfSum (low high : Word) : Word := fmul fHalf (fadd low high)

/-- The endpoint write of `NARROW` (R67) once the fresh bit is in `bit`. -/
def State.halve (s : State) : State :=
  { s with
    wlow := if s.bit then halfSum s.wlow s.whigh else s.wlow
    whigh := if s.bit then s.whigh else halfSum s.wlow s.whigh }

/-- `start_word` (R62). -/
def State.startWord (s : State) : State :=
  { s with
    wlow := s.low
    whigh := s.high
    pRecip := fdiv fOne s.p
    qRecip := fdiv fOne (fsub fOne s.p)
    result := 0#32
    nemit := 0#6
    phase := .run }

/-- The `RESET` event (R92 to R94): `VALID = 0`, `PHASE = IDLE`; every other register holds no value, so each is a free
value (log 4); `ENT_IDX` and the ports are unchanged, and no response is sent. -/
def State.resetEvent (s : State) : State :=
  { s with
    p := Config.unwritten .p s.freeIdx
    low := Config.unwritten .low s.freeIdx
    high := Config.unwritten .high s.freeIdx
    rsvBits := Config.unwritten .rsvBits s.freeIdx
    rsvCnt := (Config.unwritten .rsvCnt s.freeIdx).setWidth 7
    wlow := Config.unwritten .wlow s.freeIdx
    whigh := Config.unwritten .whigh s.freeIdx
    pRecip := Config.unwritten .pRecip s.freeIdx
    qRecip := Config.unwritten .qRecip s.freeIdx
    result := (Config.unwritten .result s.freeIdx).setWidth 32
    nemit := (Config.unwritten .nemit s.freeIdx).setWidth 6
    op := if (Config.unwritten .op s.freeIdx).getLsbD 0 then .next else .create
    valid := false
    phase := .idle
    resetPending := false
    freeIdx := s.freeIdx + 1 }

/-- The host offers one more command word (R31, R53). -/
def State.offer (s : State) (w : CmdWord) : State := { s with cmdPort := s.cmdPort ++ [w] }

/-- The outside world asserts `RESET` (R92). -/
def State.assertReset (s : State) : State := { s with resetPending := true }

/-- The next words of the entropy stream become known (R24). -/
def State.feed (s : State) (ws : List Word) : State := { s with entPort := s.entPort ++ ws }

/-- The source stops answering, or answers again (R102). -/
def State.setSilent (s : State) (b : Bool) : State := { s with entSilent := b }

/-- What the sequencer runs next: in `IDLE` the command offered at the port, decoded (R60), or nothing; in `RUN` the
micro-operation the selector picks (R64), whatever is offered. It, not the meanings, tests `PHASE` and the selector
(log 12). -/
def State.selected (s : State) : Option Instr :=
  match s.phase with
  | .idle => s.cmdPort.head?.map decodeCommand
  | .run => some (decodeSel (selector s))

/-- Put the machine before a `RUN` step whose selector is `w` (log 9): `NEMIT`, `P`, `WLOW` and `WHIGH` are set to values
that give the three conditions of R49, unless they give them already. -/
def State.showSelector (s : State) (w : BitVec 3) : State :=
  let s := { s with resetPending := false, phase := .run }
  if selector s = w then s
  else { s with
    nemit := if w.getLsbD 2 then BitVec.ofNat 6 Config.wordBits else 0#6
    p := fHalf
    wlow := if w.getLsbD 0 then fOne else fZero
    whigh := if w.getLsbD 1 then fZero else fOne }

/-- Put one command word at the head of the command port of an idle block (log 9). -/
def State.showCommand (s : State) (w : CmdWord) : State :=
  { s with resetPending := false, phase := .idle, cmdPort := w :: s.cmdPort }

end Sys2Proof.Machine
end

