-- ==== Sys2Proof/Machine/Construction.lean ====
section
/-! DEFINITION. 40_construction.md: the meaning of `CREATE`. -/

namespace Sys2Proof.Machine

/-- The writes of a successful `CREATE` (R56). -/
def State.construct (s : State) (arg : Word) : State :=
  { s with p := arg, low := fZero, high := fOne, rsvBits := 0#64, rsvCnt := 0#7, valid := true }

/-- `CREATE arg` (R54, R56, R57), one step. While a `NEXT` runs the port accepts nothing and the command waits (R60). -/
def execCreate (arg : Word) (s : State) : Result :=
  match s.phase with
  | .run => .next s
  | .idle =>
    if invalidProbability arg then .next (s.accept .create).raiseInvalidProbability
    else .next (((s.accept .create).construct arg).respond stOk 0#32)

end Sys2Proof.Machine
end

