-- ==== Sys2Proof/Machine/Reservoir.lean ====
section
/-! DEFINITION. 42_bit_reservoir.md: the meanings of `NEXT_BIT` and `REFILL`. -/

namespace Sys2Proof.Machine

/-- `NEXT_BIT` (R76): refill when empty, then take one bit, which stands in `bit` afterwards. -/
def execNextBit (s : State) : Result := toResult s.takeFreshBit

/-- `REFILL` (R77): the reservoir takes one whole entropy word. -/
def execRefill (s : State) : Result := toResult s.refillReservoir

end Sys2Proof.Machine
end

