-- ==== Sys2Proof/Machine/WordGeneration.lean ====
section
/-! DEFINITION. 41_word_generation.md: the meanings of `NEXT` and of the four micro-operations of the
interval_narrowing_loop. -/

namespace Sys2Proof.Machine

/-- `NEXT` (R61), its accepting step: the tests in the order of R86 (b). While a `NEXT` runs the port accepts nothing and
the command waits (R60). -/
def execNext (s : State) : Result :=
  match s.phase with
  | .run => .next s
  | .idle =>
    let t := s.accept .next
    if !s.valid then .next t.raiseNotConstructed
    else if feq s.p fZero then .next (t.respond stOk 0x00000000#32)
    else if feq s.p fOne then .next (t.respond stOk 0xFFFFFFFF#32)
    else .next t.startWord

/-- `EMIT1` (R65): emit 1; both endpoints times `P_RECIP`. -/
def execEmit1 (s : State) : Result :=
  .next (s.emit true (fmul s.wlow s.pRecip) (fmul s.whigh s.pRecip))

/-- `EMIT0` (R66): emit 0; both endpoints less `P`, rounded, then times `Q_RECIP`. -/
def execEmit0 (s : State) : Result :=
  .next (s.emit false (fmul (fsub s.wlow s.p) s.qRecip) (fmul (fsub s.whigh s.p) s.qRecip))

/-- `NARROW` (R67): one `NEXT_BIT`, then one endpoint moves to the midpoint of the interval before the step. -/
def execNarrow (s : State) : Result :=
  match s.takeFreshBit with
  | .ok t => .next t.halve
  | .error f => .fault f

/-- `WORD_DONE` (R69): persist the working interval and answer with the word. -/
def execWordDone (s : State) : Result :=
  .next ({ s with low := s.wlow, high := s.whigh }.respond stOk s.result)

end Sys2Proof.Machine
end

