-- ==== Sys2Proof/Machine/Dispatch.lean ====
section
/-! DEFINITION. One arm for each instruction. -/

namespace Sys2Proof.Machine

def exec (i : Instr) (s : State) : Host.Outcome State Fault Refusal :=
  match i with
  | .create arg => Sys2Proof.Machine.execCreate arg s
  | .next => Sys2Proof.Machine.execNext s
  | .emit1 => Sys2Proof.Machine.execEmit1 s
  | .emit0 => Sys2Proof.Machine.execEmit0 s
  | .narrow => Sys2Proof.Machine.execNarrow s
  | .wordDone => Sys2Proof.Machine.execWordDone s
  | .nextBit => Sys2Proof.Machine.execNextBit s
  | .refill => Sys2Proof.Machine.execRefill s

end Sys2Proof.Machine
end

