-- ==== Sys2Proof/Machine/Step.lean ====
section
/-! DEFINITION. One step of the block: `RESET` before everything (R86 (d)), else the selected instruction (R60, R64). -/

namespace Sys2Proof.Machine

/-- One step. An idle block to which no command is offered waits (R93: "after reset the block waits for a command";
log 8). -/
def step (s : State) : Host.Outcome State Fault Refusal :=
  if s.resetPending then .next s.resetEvent
  else match s.selected with
    | some i => exec i s
    | none => .next s

/-- The state whose very next step runs the table word `w` of `nbits` bits (log 9). A command word is offered at the
command port of the idle block. A selector word sets the registers that give that selector in `RUN`. For a single bit
the next step is a `NARROW` whose `NEXT_BIT` finds `EMPTY` as that bit. -/
def State.withFetchWord (s : State) (nbits w : Nat) : State :=
  match formatOfBits nbits with
  | .c => s.showCommand (BitVec.ofNat 65 w)
  | .sel => s.showSelector (BitVec.ofNat 3 w)
  | .empty =>
    { s.showSelector 0b000#3 with
      rsvCnt := if w % 2 = 1 then 0#7 else if emptyFlag s then 1#7 else s.rsvCnt }

end Sys2Proof.Machine
end

