-- ==== Sys2Proof/Safety.lean ====
section
/-! DEFINITION. The terms the statements use: the invariant of a run, the two states agreeing on all that has been
written, the hung and the dead intervals, what nearest means, and the spec's big-step reading of `NEXT`. -/

namespace Sys2Proof.Safety

open Sys2Proof.Machine

/-- A probability strictly between 0 and 1 as a pattern (R11, R28): the non-degenerate values of `P`. -/
def openProbability (p : Word) : Prop := 0 < p.toNat ∧ p.toNat < 0x3FF0000000000000

/-- The part of the invariant about a generator that exists: `P` is in `[+0.0, 1.0]` (R11), at most 63 bits are buffered
between steps and the buffer is zero above them (R13), and a degenerate generator still has the interval and the empty
reservoir that `CREATE` gave it (R14, R63). -/
structure GeneratorInv (s : State) : Prop where
  probability : s.p.toNat ≤ 0x3FF0000000000000
  count       : s.rsvCnt.toNat ≤ 63
  buffer      : s.rsvBits.toNat < 2 ^ s.rsvCnt.toNat
  degenerate  : ¬ openProbability s.p → s.low = fZero ∧ s.high = fOne ∧ s.rsvCnt = 0#7

/-- The part of the invariant about a word in progress: it is a `NEXT` (R22) of an existing (R61) non-degenerate (R63)
generator, `NEMIT` is at most 32 (R18), the reciprocals are those of `P` (R16), and `RESULT` holds the bits emitted so
far and zeros (R17). -/
structure WordInv (s : State) : Prop where
  valid       : s.valid = true
  command     : s.op = .next
  probability : openProbability s.p
  emitted     : s.nemit.toNat ≤ 32
  pRecip      : s.pRecip = fdiv fOne s.p
  qRecip      : s.qRecip = fdiv fOne (fsub fOne s.p)
  result      : s.result.toNat < 2 ^ s.nemit.toNat

/-- Responses carry a status that is sent (R45), and data only with `ST_OK` (R44). -/
def ResponsesLegal (s : State) : Prop :=
  ∀ r ∈ s.rspPort, statusOf r ≠ 0b11#2 ∧ (statusOf r ≠ stOk → dataOf r = 0#32)

/-- The invariant every step keeps. -/
structure Inv (s : State) : Prop where
  generator : s.valid = true → GeneratorInv s
  word      : s.phase = .run → WordInv s
  responses : ResponsesLegal s

/-- Two states agree on everything that has been written since reset and on everything outside the block: the guard of
R25. `P` and the reservoir count when a generator exists or a word is in progress, `LOW` and `HIGH` when a generator
exists, the working registers while a word is in progress. `OP` and the last fresh bit never count. -/
structure AgreeOnWritten (s t : State) : Prop where
  valid        : s.valid = t.valid
  phase        : s.phase = t.phase
  entIdx       : s.entIdx = t.entIdx
  cmdPort      : s.cmdPort = t.cmdPort
  rspPort      : s.rspPort = t.rspPort
  entPort      : s.entPort = t.entPort
  entSilent    : s.entSilent = t.entSilent
  resetPending : s.resetPending = t.resetPending
  freeIdx      : s.freeIdx = t.freeIdx
  generator    : s.valid = true ∨ s.phase = .run → s.p = t.p ∧ s.rsvBits = t.rsvBits ∧ s.rsvCnt = t.rsvCnt
  interval     : s.valid = true → s.low = t.low ∧ s.high = t.high
  word         : s.phase = .run → s.wlow = t.wlow ∧ s.whigh = t.whigh ∧ s.pRecip = t.pRecip ∧ s.qRecip = t.qRecip ∧
    s.result = t.result ∧ s.nemit = t.nemit

/-- A word is in progress, not finished, no `RESET` is asserted and the source answers. -/
structure Running (s : State) : Prop where
  phase    : s.phase = .run
  unfinished : s.nemit.toNat ≠ 32
  noReset  : s.resetPending = false
  answers  : s.entSilent = false

/-- R98: the interval has collapsed onto the threshold. -/
structure Collapsed (s : State) : Prop extends Running s where
  probability : openProbability s.p
  wlow        : s.wlow = s.p
  whigh       : s.whigh = s.p

/-- R101: the lower endpoint is a NaN, and the interval does not lie below the threshold. -/
structure NaNInterval (s : State) : Prop extends Running s where
  wlow  : isNaN s.wlow = true
  whigh : flt s.whigh s.p = false

/-- Bits drawn from the source less bits still buffered go up by `n` from `s` to `t`: exactly `n` bits were consumed
(R72). -/
def Consumed (n : Nat) (s t : State) : Prop :=
  64 * t.entIdx + s.rsvCnt.toNat = 64 * s.entIdx + t.rsvCnt.toNat + n

/-- How many commands are in progress (R23): one in `RUN`, none in `IDLE`. -/
def inProgress (s : State) : Nat :=
  match s.phase with
  | .idle => 0
  | .run => 1

/-- The reservoir and the entropy port are as they were. -/
structure NoEntropyUsed (s t : State) : Prop where
  rsvBits : t.rsvBits = s.rsvBits
  rsvCnt  : t.rsvCnt = s.rsvCnt
  entIdx  : t.entIdx = s.entIdx
  entPort : t.entPort = s.entPort

/-- The value of a finite pattern in units of `2^-1074`, with its sign (R26). -/
def finiteUnits (b : Word) : Option Int :=
  match valueOf b with
  | .fin neg units => some (signedUnits neg units)
  | .inf _ => none
  | .nan => none

/-- Twice the least number of units that rounds to an infinity: halfway between the largest finite pattern and `2^1024`. -/
@[irreducible] def twiceOverflow : Nat := (2 ^ 54 - 1) * 2 ^ 2045

/-- `r` is `num/den` units rounded to nearest, ties to even (R27): no finite pattern is nearer; an equally near one of
another value loses to an even `r`; and `r` is the infinity of the exact number's sign exactly from the overflow
threshold on. -/
def RoundedToNearest (r : Word) (num : Int) (den : Nat) : Prop :=
  match valueOf r with
  | .nan => False
  | .inf neg => twiceOverflow * den ≤ 2 * num.natAbs ∧ neg = decide (num < 0)
  | .fin neg units =>
    2 * num.natAbs < twiceOverflow * den ∧
    ∀ c v, finiteUnits c = some v →
      (signedUnits neg units * den - num).natAbs ≤ (v * den - num).natAbs ∧
      ((signedUnits neg units * den - num).natAbs = (v * den - num).natAbs → v ≠ signedUnits neg units →
        r.getLsbD 0 = false)

/-- The variables of the big-step reading of R70: `lo`, `hi`, `res`, `n`, and the state whose reservoir `NEXT_BIT`
works on. -/
structure LoopVars where
  lo  : Word
  hi  : Word
  res : BitVec 32
  n   : Nat
  env : State

/-- The `while n < 32` loop of R70 with `p`, `pr`, `qr`, under fuel (R70: "as a relation or under fuel"). It answers the
final variables and the number of iterations, or nothing when the fuel or the entropy ends first. -/
def wordLoop (p pr qr : Word) : Nat → LoopVars → Option (LoopVars × Nat)
  | fuel, v =>
    if 32 ≤ v.n then some (v, 0)
    else match fuel with
      | 0 => none
      | fuel + 1 =>
        let again := fun v => (wordLoop p pr qr fuel v).map fun (w, k) => (w, k + 1)
        if flt v.hi p then
          again { v with res := (v.res <<< 1) ||| 1#32, lo := fmul v.lo pr, hi := fmul v.hi pr, n := v.n + 1 }
        else if fgt v.lo p then
          again { v with
            res := (v.res <<< 1) ||| 0#32, lo := fmul (fsub v.lo p) qr, hi := fmul (fsub v.hi p) qr, n := v.n + 1 }
        else match v.env.takeFreshBit with
          | .error _ => none
          | .ok env =>
            let mid := fmul fHalf (fadd v.lo v.hi)
            again (if env.bit then { v with lo := mid, env := env } else { v with hi := mid, env := env })

/-- Where the loop of R70 begins. -/
def wordLoopStart (s : State) : LoopVars where
  lo := s.low
  hi := s.high
  res := 0#32
  n := 0
  env := s

/-- `n` successive executions of one instruction. -/
def repeatInstr (i : Instr) : Nat → State → Result
  | 0, s => .next s
  | n + 1, s =>
    match repeatInstr i n s with
    | .next t => exec i t
    | .fault f => .fault f
    | .refused r => .refused r

/-- The emit that appends a given bit. -/
def emitOf (b : Bool) : Instr := if b then .emit1 else .emit0

/-- Execute the emits of a list of bits, the first bit first. -/
def emitBits : List Bool → State → Result
  | [], s => .next s
  | b :: bs, s =>
    match exec (emitOf b) s with
    | .next t => emitBits bs t
    | .fault f => .fault f
    | .refused r => .refused r

end Sys2Proof.Safety
end

