-- ==== Sys2Proof/Certificates/Slice0/Obligations.lean ====
section
/-! DEFINITION. The statements about the block, for the provers. Each docstring names the rule it formalises. A next
state is written out as the state before with the fields the instruction writes, so each such statement is the
instruction's completion, its result and its frame in one. -/

open Sys2Proof Sys2Proof.Machine Sys2Proof.Safety

/-! ### Construction (40_construction.md) -/

/-- R56. An idle block that is sent `CREATE arg` with `arg` of sign bit 0, not greater than 1.0 and no NaN constructs
the generator: six writes, the response `ST_OK` with data 0, no entropy drawn, no working register written;
`OP` and the command port as R60 says. -/
def Obligations.CreateConstructsGenerator : Prop :=
  ∀ (arg : Word) (s : State), s.phase = .idle →
    arg.getLsbD 63 = false → fgt arg 0x3FF0000000000000#64 = false → isNaN arg = false →
    exec (.create arg) s = .next { s with
      p := arg, low := 0x0000000000000000#64, high := 0x3FF0000000000000#64, rsvBits := 0#64, rsvCnt := 0#7,
      valid := true, op := .create, cmdPort := s.cmdPort.tail, rspPort := s.rspPort ++ [0x000000000#34] }

/-- R57, R82. An idle block that is sent `CREATE arg` with the sign bit set (`-0.0` among them), or greater than 1.0, or
a NaN, clears `VALID`, answers `ST_INVALID_PROBABILITY` with data 0 and changes no other register than the `OP` of
acceptance (R60; log 10). -/
def Obligations.CreateRefusesInvalidProbability : Prop :=
  ∀ (arg : Word) (s : State), s.phase = .idle →
    arg.getLsbD 63 = true ∨ fgt arg 0x3FF0000000000000#64 = true ∨ isNaN arg = true →
    exec (.create arg) s = .next { s with
      valid := false, op := .create, cmdPort := s.cmdPort.tail, rspPort := s.rspPort ++ [0x100000000#34] }

/-- R55, its derived integer form. The validity test is one unsigned comparison with the pattern of 1.0. -/
def Obligations.ValidityTestIsIntegerComparison : Prop :=
  ∀ arg : Word, invalidProbability arg = decide (0x3FF0000000000000 < arg.toNat)

/-- R60. In `IDLE` the command at the port is decoded and executed in one step, `OP` records `CMD[64]` and the port gives
it up; in `RUN` no command has any effect (as an instruction it waits, log 12) and the port keeps what is offered. -/
def Obligations.CommandAcceptance : Prop :=
  (∀ (s : State) (w : CmdWord) (ws : List CmdWord),
    s.resetPending = false → s.phase = .idle → s.cmdPort = w :: ws →
    step s = exec (decodeCommand w) s ∧
    ∃ t, step s = .next t ∧ t.cmdPort = ws ∧ t.op = if w.getLsbD 64 then Op.next else Op.create) ∧
  (∀ (s : State) (arg : Word), s.phase = .run → exec (.create arg) s = .next s ∧ exec .next s = .next s) ∧
  (∀ s t : State, s.resetPending = false → s.phase = .run → step s = .next t → t.cmdPort = s.cmdPort ∧ t.op = s.op)

/-! ### The `NEXT` command (41_word_generation.md sections 1 and 2) -/

/-- R83. `NEXT` without a generator answers `ST_NOT_CONSTRUCTED` with data 0 and writes no register but the `OP` of
acceptance (R60; log 10). -/
def Obligations.NextRefusesWithoutGenerator : Prop :=
  ∀ s : State, s.phase = .idle → s.valid = false →
    exec .next s = .next { s with
      op := .next, cmdPort := s.cmdPort.tail, rspPort := s.rspPort ++ [0x200000000#34] }

/-- R63. For a degenerate `P` the loop is not entered: the answer is the word of 32 zeros or of 32 ones, no register is
written but the `OP` of acceptance (R60; log 10), and no entropy is drawn. -/
def Obligations.NextDegenerateWords : Prop :=
  ∀ s : State, s.phase = .idle → s.valid = true →
    (feq s.p 0x0000000000000000#64 = true →
      exec .next s = .next { s with
        op := .next, cmdPort := s.cmdPort.tail, rspPort := s.rspPort ++ [0x000000000#34] }) ∧
    (feq s.p 0x3FF0000000000000#64 = true →
      exec .next s = .next { s with
        op := .next, cmdPort := s.cmdPort.tail, rspPort := s.rspPort ++ [0x0FFFFFFFF#34] })

/-- R62, with its worked example. `NEXT` with a generator whose `P` is neither 0.0 nor 1.0 starts a word: seven writes, no
response. -/
def Obligations.NextStartsWord : Prop :=
  (∀ s : State, s.phase = .idle → s.valid = true →
    feq s.p 0x0000000000000000#64 = false → feq s.p 0x3FF0000000000000#64 = false →
    exec .next s = .next { s with
      wlow := s.low, whigh := s.high,
      pRecip := fdiv 0x3FF0000000000000#64 s.p,
      qRecip := fdiv 0x3FF0000000000000#64 (fsub 0x3FF0000000000000#64 s.p),
      result := 0#32, nemit := 0#6, phase := .run, op := .next, cmdPort := s.cmdPort.tail }) ∧
  fdiv 0x3FF0000000000000#64 0x3FE8000000000000#64 = 0x3FF5555555555555#64 ∧
  fdiv 0x3FF0000000000000#64 (fsub 0x3FF0000000000000#64 0x3FE8000000000000#64) = 0x4010000000000000#64

/-- R62, R101, their derived bounds. For `0 < P < 1`, `P_RECIP` overflows exactly up to `2^-1024` and is never a NaN,
`1 - P` rounds to at least `2^-53`, and `Q_RECIP` is at most `2^53`. -/
def Obligations.ReciprocalRange : Prop :=
  ∀ p : Word, openProbability p →
    (isInf (fdiv fOne p) = true ↔ p.toNat ≤ 0x0004000000000000) ∧ isNaN (fdiv fOne p) = false ∧
    0x3CA0000000000000 ≤ (fsub fOne p).toNat ∧ (fsub fOne p).toNat ≤ 0x3FF0000000000000 ∧
    0x3FF0000000000000 ≤ (fdiv fOne (fsub fOne p)).toNat ∧
    (fdiv fOne (fsub fOne p)).toNat ≤ 0x4340000000000000

/-! ### The interval_narrowing_loop (41_word_generation.md section 3) -/

/-- R49. The selector's bits are the three conditions; the four rows are disjoint, cover all eight values, and the
decoder picks the row that admits the value. -/
def Obligations.SelectorRowsPartition : Prop :=
  (∀ s : State, (selector s).getLsbD 2 = decide (s.nemit.toNat = 32) ∧
    (selector s).getLsbD 1 = flt s.whigh s.p ∧ (selector s).getLsbD 0 = fgt s.wlow s.p) ∧
  (∀ (w : BitVec 3) (i : Instr), decode { format := .sel, value := w.toNat } = .ok i ↔
    i ∈ [Instr.wordDone, .emit1, .emit0, .narrow] ∧
    (tableRow i).admits { format := .sel, value := w.toNat } = true)

/-- R64. In `RUN` the step is the micro-operation of the if-chain, in its order. -/
def Obligations.RunStepFollowsComparisons : Prop :=
  ∀ s : State, s.resetPending = false → s.phase = .run →
    step s =
      if s.nemit.toNat = 32 then exec .wordDone s
      else if flt s.whigh s.p then exec .emit1 s
      else if fgt s.wlow s.p then exec .emit0 s
      else exec .narrow s

/-- R65, with its selection and its worked example. `EMIT1` emits 1 and multiplies both endpoints by `P_RECIP`; nothing
else changes. -/
def Obligations.Emit1EmitsOne : Prop :=
  (∀ s : State, exec .emit1 s = .next { s with
    result := (s.result <<< 1) ||| 1#32, wlow := fmul s.wlow s.pRecip, whigh := fmul s.whigh s.pRecip,
    nemit := s.nemit + 1#6 }) ∧
  (∀ s : State, s.phase = .run →
    (s.selected = some .emit1 ↔ s.nemit.toNat ≠ 32 ∧ flt s.whigh s.p = true)) ∧
  fmul 0x0000000000000000#64 0x3FF5555555555555#64 = 0x0000000000000000#64 ∧
  fmul 0x3FE0000000000000#64 0x3FF5555555555555#64 = 0x3FE5555555555555#64

/-- R66, with its selection and its worked example. `EMIT0` emits 0, subtracts `P` and multiplies by `Q_RECIP`; nothing
else changes. -/
def Obligations.Emit0EmitsZero : Prop :=
  (∀ s : State, exec .emit0 s = .next { s with
    result := (s.result <<< 1) ||| 0#32, wlow := fmul (fsub s.wlow s.p) s.qRecip,
    whigh := fmul (fsub s.whigh s.p) s.qRecip, nemit := s.nemit + 1#6 }) ∧
  (∀ s : State, s.phase = .run →
    (s.selected = some .emit0 ↔ s.nemit.toNat ≠ 32 ∧ flt s.whigh s.p = false ∧ fgt s.wlow s.p = true)) ∧
  fmul (fsub 0x3FEC000000000000#64 0x3FE8000000000000#64) 0x4010000000000000#64 = 0x3FE0000000000000#64 ∧
  fmul (fsub 0x3FF0000000000000#64 0x3FE8000000000000#64) 0x4010000000000000#64 = 0x3FF0000000000000#64

/-- R67, with its selection and its worked example. `NARROW` takes exactly one bit (refilling first iff `RSV_CNT = 0`) and
moves one endpoint to the midpoint of the interval before the step; nothing else changes. It completes whenever a bit is
buffered or the source answers. -/
def Obligations.NarrowHalvesInterval : Prop :=
  (∀ s : State, s.rsvCnt ≠ 0#7 ∨ s.entSilent = false →
    let buffer := if s.rsvCnt = 0#7 then s.upcomingWord 0 else s.rsvBits
    let mid := fmul 0x3FE0000000000000#64 (fadd s.wlow s.whigh)
    exec .narrow s = .next { s with
      bit := buffer.getLsbD 0
      rsvBits := buffer >>> 1
      rsvCnt := if s.rsvCnt = 0#7 then 63#7 else s.rsvCnt - 1#7
      entPort := if s.rsvCnt = 0#7 then s.entPort.tail else s.entPort
      entIdx := if s.rsvCnt = 0#7 then s.entIdx + 1 else s.entIdx
      wlow := if buffer.getLsbD 0 = true then mid else s.wlow
      whigh := if buffer.getLsbD 0 = true then s.whigh else mid }) ∧
  (∀ s : State, s.phase = .run →
    (s.selected = some .narrow ↔ s.nemit.toNat ≠ 32 ∧ flt s.whigh s.p = false ∧ fgt s.wlow s.p = false)) ∧
  fmul 0x3FE0000000000000#64 (fadd 0x0000000000000000#64 0x3FF0000000000000#64) = 0x3FE0000000000000#64

/-- R69, with its selection. `WORD_DONE` persists the working interval, answers `ST_OK` with the word and returns to
`IDLE`; the reservoir and the working registers keep their values; no other instruction but `CREATE` writes `LOW` or
`HIGH`. -/
def Obligations.WordDonePersistsAndResponds : Prop :=
  (∀ s : State, exec .wordDone s = .next { s with
    low := s.wlow, high := s.whigh, rspPort := s.rspPort ++ [0b00#2 ++ s.result], phase := .idle }) ∧
  (∀ s : State, s.phase = .run → (s.selected = some .wordDone ↔ s.nemit.toNat = 32)) ∧
  (∀ (i : Instr) (s t : State), exec i s = .next t → t.low ≠ s.low ∨ t.high ≠ s.high →
    i = .wordDone ∨ ∃ arg, i = .create arg)

/-- R65, its derived corner case. With a finite `P_RECIP`, `EMIT1` leaves `WHIGH` at most 1.0. -/
def Obligations.Emit1KeepsIntervalBelowOne : Prop :=
  ∀ p w : Word, openProbability p → w.toNat ≤ 0x3FF0000000000000 → flt w p = true →
    isInf (fdiv fOne p) = false → (fmul w (fdiv fOne p)).toNat ≤ 0x3FF0000000000000

/-- R66, its corner cases. Above the threshold the difference is positive, and the endpoint 1.0 maps to 1.0 or to a
neighbour of it; to 1.0 for 0.75. -/
def Obligations.Emit0EndpointMap : Prop :=
  (∀ a p : Word, fgt a p = true → flt fZero (fsub a p) = true) ∧
  (∀ p : Word, openProbability p →
    (fmul (fsub fOne p) (fdiv fOne (fsub fOne p))).toNat = 0x3FEFFFFFFFFFFFFF ∨
    (fmul (fsub fOne p) (fdiv fOne (fsub fOne p))).toNat = 0x3FF0000000000000 ∨
    (fmul (fsub fOne p) (fdiv fOne (fsub fOne p))).toNat = 0x3FF0000000000001) ∧
  fmul (fsub fOne 0x3FE8000000000000#64) (fdiv fOne (fsub fOne 0x3FE8000000000000#64)) = fOne

/-- R71. Thirty-two emits from an empty `RESULT` put the i-th bit emitted (from 0) at bit `31 - i`. -/
def Obligations.OutputBitOrder : Prop :=
  ∀ (bits : List Bool) (s : State), bits.length = 32 → s.result = 0#32 →
    ∃ t, emitBits bits s = .next t ∧ ∀ i < 32, t.result.getLsbD (31 - i) = bits.getD i false

/-- R70. `NEXT` is the big-step loop: where the loop ends after `k` iterations, `k + 2` steps of the block answer its
word, persist its interval and leave its reservoir; where it has not ended after `fuel` iterations with an answering
source, the block is still in `RUN` and has neither responded nor written `LOW` or `HIGH`. -/
def Obligations.WordEqualsBigStep : Prop :=
  ∀ (s : State) (w : CmdWord) (ws : List CmdWord) (fuel : Nat),
    s.phase = .idle → s.resetPending = false → s.valid = true →
    feq s.p fZero = false → feq s.p fOne = false → s.cmdPort = w :: ws → w.getLsbD 64 = true →
    match wordLoop s.p (fdiv fOne s.p) (fdiv fOne (fsub fOne s.p)) fuel (wordLoopStart s) with
    | some (v, k) => ∃ t : State, core.run (k + 2) s = .next t ∧
        t.phase = .idle ∧ t.rspPort = s.rspPort ++ [rspWord stOk v.res] ∧ t.cmdPort = ws ∧
        t.low = v.lo ∧ t.high = v.hi ∧ t.p = s.p ∧ t.valid = true ∧
        t.rsvBits = v.env.rsvBits ∧ t.rsvCnt = v.env.rsvCnt ∧ t.entIdx = v.env.entIdx ∧ t.entPort = v.env.entPort
    | none => s.entSilent = false → ∃ t : State, core.run (fuel + 1) s = .next t ∧
        t.phase = .run ∧ t.rspPort = s.rspPort ∧ t.cmdPort = ws ∧ t.low = s.low ∧ t.high = s.high

/-! ### The reservoir (42_bit_reservoir.md) -/

/-- R76, with its worked examples. `NEXT_BIT` returns the least-significant buffered bit, shifts and decrements, after a
refill iff the reservoir is empty; nothing else changes. It completes whenever a bit is buffered or the source
answers. -/
def Obligations.NextBitTakesLowBit : Prop :=
  (∀ s : State, s.rsvCnt ≠ 0#7 →
    exec .nextBit s = .next { s with
      bit := s.rsvBits.getLsbD 0, rsvBits := s.rsvBits >>> 1, rsvCnt := s.rsvCnt - 1#7 }) ∧
  (∀ s : State, s.rsvCnt = 0#7 → s.entSilent = false →
    exec .nextBit s = .next { s with
      bit := (s.upcomingWord 0).getLsbD 0, rsvBits := s.upcomingWord 0 >>> 1, rsvCnt := 63#7,
      entPort := s.entPort.tail, entIdx := s.entIdx + 1 }) ∧
  (∀ s : State, s.rsvBits = 0x0000000000000005#64 → s.rsvCnt = 3#7 →
    exec .nextBit s = .next { s with bit := true, rsvBits := 0x0000000000000002#64, rsvCnt := 2#7 }) ∧
  (∀ (s : State) (ws : List Word), s.rsvCnt = 0#7 → s.entSilent = false → s.entPort = 0x0123456789ABCDEF#64 :: ws →
    exec .nextBit s = .next { s with
      bit := true, rsvBits := 0x0091A2B3C4D5E6F7#64, rsvCnt := 63#7, entPort := ws, entIdx := s.entIdx + 1 })

/-- R77, with its worked example. `REFILL` loads one whole entropy word and sets the count to 64; nothing else changes. It
completes whenever the source answers. -/
def Obligations.RefillLoadsWord : Prop :=
  (∀ s : State, s.entSilent = false →
    exec .refill s = .next { s with
      rsvBits := s.upcomingWord 0, rsvCnt := 64#7, entPort := s.entPort.tail, entIdx := s.entIdx + 1 }) ∧
  (∀ (s : State) (ws : List Word), s.entSilent = false → s.entPort = 0xFEDCBA9876543210#64 :: ws →
    exec .refill s = .next { s with
      rsvBits := 0xFEDCBA9876543210#64, rsvCnt := 64#7, entPort := ws, entIdx := s.entIdx + 1 })

/-- R78. From an empty reservoir the j-th fresh bit (from 0) is bit `j mod 64` of the `(j div 64)`-th word drawn. -/
def Obligations.ReservoirBitOrder : Prop :=
  ∀ (s : State) (j : Nat), s.rsvCnt = 0#7 → s.entSilent = false →
    ∃ t, repeatInstr .nextBit (j + 1) s = .next t ∧ t.bit = (s.upcomingWord (j / 64)).getLsbD (j % 64)

/-- R72, R77. A step that runs `NARROW` consumes exactly one bit; no other step draws a word; no step but a `NARROW` or a
`CREATE` touches the reservoir; and a word is drawn only when the reservoir is empty. -/
def Obligations.EntropyAccounting : Prop :=
  ∀ s t : State, s.resetPending = false → step s = .next t →
    (s.selected = some .narrow → Consumed 1 s t) ∧
    (s.selected ≠ some .narrow → t.entIdx = s.entIdx ∧ t.entPort = s.entPort) ∧
    (s.selected ≠ some .narrow → (∀ arg, s.selected ≠ some (.create arg)) → NoEntropyUsed s t) ∧
    (t.entIdx ≠ s.entIdx → s.rsvCnt = 0#7)

/-! ### Errors, reset and the step (60_exceptions.md, 70_reset_and_hazards.md) -/

/-- R84, R102 (the stop is the model's form of the stuck state, log 6). An instruction stops only when it needs a word
from a source that does not answer: `REFILL` always, `NEXT_BIT` and `NARROW` on an empty reservoir; and then it does
stop. No instruction is refused. -/
def Obligations.OnlySilentSourceStops : Prop :=
  (∀ (i : Instr) (s : State) (f : Fault), exec i s = .fault f ↔
    f = .entropySourceSilent ∧ s.entSilent = true ∧
      (i = .refill ∨ (s.rsvCnt = 0#7 ∧ (i = .nextBit ∨ i = .narrow)))) ∧
  (∀ (i : Instr) (s : State) (r : Refusal), exec i s ≠ .refused r)

/-- The step (R60, R64; waiting on an empty port is R93's "waits for a command"). Where no `RESET` is asserted, a step is
the execution of the instruction decoded from the command offered to an idle block, or from the selector in `RUN`, and
adds nothing to it; an idle block with nothing offered is unchanged (log 8). -/
def Obligations.StepRunsSelectedInstruction : Prop :=
  (∀ (s : State) (i : Instr) (w : CmdWord) (ws : List CmdWord), s.resetPending = false → s.phase = .idle →
    s.cmdPort = w :: ws → decode { format := .c, value := w.toNat } = .ok i → step s = exec i s) ∧
  (∀ (s : State) (i : Instr), s.resetPending = false → s.phase = .run →
    decode { format := .sel, value := (selector s).toNat } = .ok i → step s = exec i s) ∧
  (∀ s : State, s.resetPending = false → s.phase = .idle → s.cmdPort = [] → step s = .next s)

/-- R93, R94, R86 (d). An asserted `RESET` takes the next step in any state, mid-word too: no generator, `IDLE`, no
response, nothing accepted, the entropy stream not rewound. (What the registers without a reset value hold is left free
and not stated.) -/
def Obligations.ResetEventAbandonsEverything : Prop :=
  ∀ s : State, s.resetPending = true →
    ∃ t, step s = .next t ∧ t.valid = false ∧ t.phase = .idle ∧ t.resetPending = false ∧
      t.entIdx = s.entIdx ∧ t.entPort = s.entPort ∧ t.entSilent = s.entSilent ∧
      t.rspPort = s.rspPort ∧ t.cmdPort = s.cmdPort

/-- R93, R24. The state right after reset has no generator, is `IDLE`, has drawn nothing, and meets the invariant. -/
def Obligations.ResetStateMeetsInv : Prop :=
  State.reset.valid = false ∧ State.reset.phase = .idle ∧ State.reset.entIdx = 0 ∧ Inv State.reset

/-- R11, R13, R14, R16, R17, R18, R22, R44, R45. Every step keeps the invariant. -/
def Obligations.StepKeepsInv : Prop :=
  ∀ s t : State, Inv s → step s = .next t → Inv t

/-- R34. Every accepted command ends in exactly one response and nothing else responds: the commands waiting, the one in
progress and the responses sent add up to the same number before and after a step, a response is only ever added, and a
step that responds leaves the block `IDLE`. -/
def Obligations.OneResponsePerCommand : Prop :=
  ∀ s t : State, s.resetPending = false → step s = .next t →
    t.rspPort.length + t.cmdPort.length + inProgress t =
      s.rspPort.length + s.cmdPort.length + inProgress s ∧
    (t.rspPort = s.rspPort ∨ ∃ r, t.rspPort = s.rspPort ++ [r] ∧ t.phase = .idle)

/-- R10, its column "written by". A register that an instruction changes is one that the table says it writes; the ports
change only where R33, R34 and R60 say so. -/
def Obligations.RegisterWriters : Prop :=
  ∀ (i : Instr) (s t : State), exec i s = .next t →
    (t.p ≠ s.p ∨ t.valid ≠ s.valid → ∃ arg, i = .create arg) ∧
    (t.low ≠ s.low ∨ t.high ≠ s.high → i = .wordDone ∨ ∃ arg, i = .create arg) ∧
    (t.rsvBits ≠ s.rsvBits ∨ t.rsvCnt ≠ s.rsvCnt →
      i = .refill ∨ i = .nextBit ∨ i = .narrow ∨ ∃ arg, i = .create arg) ∧
    (t.wlow ≠ s.wlow ∨ t.whigh ≠ s.whigh → i = .next ∨ i = .emit1 ∨ i = .emit0 ∨ i = .narrow) ∧
    (t.pRecip ≠ s.pRecip ∨ t.qRecip ≠ s.qRecip → i = .next) ∧
    (t.result ≠ s.result ∨ t.nemit ≠ s.nemit → i = .next ∨ i = .emit1 ∨ i = .emit0) ∧
    (t.phase ≠ s.phase → i = .next ∨ i = .wordDone) ∧
    (t.op ≠ s.op ∨ t.cmdPort ≠ s.cmdPort → i = .next ∨ ∃ arg, i = .create arg) ∧
    (t.rspPort ≠ s.rspPort → i = .next ∨ i = .wordDone ∨ ∃ arg, i = .create arg) ∧
    (t.entIdx ≠ s.entIdx ∨ t.entPort ≠ s.entPort → i = .refill ∨ i = .nextBit ∨ i = .narrow) ∧
    (t.entSilent = s.entSilent ∧ t.resetPending = s.resetPending ∧ t.freeIdx = s.freeIdx)

/-- R11, R58. A step without `RESET` that changes `P` accepts a `CREATE` with a valid operand, and `P` is that operand. -/
def Obligations.OnlySuccessfulCreateChangesP : Prop :=
  ∀ s t : State, s.resetPending = false → step s = .next t → t.p ≠ s.p →
    ∃ w ws, s.phase = .idle ∧ s.cmdPort = w :: ws ∧ w.getLsbD 64 = false ∧
      w.toNat ≤ 0x3FF0000000000000 ∧ t.p.toNat = w.toNat ∧ t.valid = true

/-- R25, R73. Nothing that has not been written is read: two states that agree on what has been written take the same
step to states that agree again. -/
def Obligations.UnwrittenRegistersNeverRead : Prop :=
  ∀ s t : State, AgreeOnWritten s t →
    (∀ s', step s = .next s' → ∃ t', step t = .next t' ∧ AgreeOnWritten s' t') ∧
    (∀ f, step s = .fault f → step t = .fault f)

/-- R25, R73, R93. Two blocks without a generator, whatever their registers hold, with the same commands and the same
entropy, give the same responses and draw as many words after any number of steps. -/
def Obligations.ResetValuesUnobservable : Prop :=
  ∀ s t : State, s.valid = false → t.valid = false → s.phase = .idle → t.phase = .idle →
    s.cmdPort = t.cmdPort → s.rspPort = t.rspPort → s.entPort = t.entPort → s.entIdx = t.entIdx →
    s.entSilent = t.entSilent → s.resetPending = t.resetPending → s.freeIdx = t.freeIdx →
    ∀ (k : Nat) (s' : State), core.run k s = .next s' →
      ∃ t' : State, core.run k t = .next t' ∧ t'.rspPort = s'.rspPort ∧ t'.entIdx = s'.entIdx ∧ t'.valid = s'.valid

/-! ### Hazards (70_reset_and_hazards.md section 3) -/

/-- R98. From an interval collapsed onto the threshold no number of steps ends the word: the interval, `NEMIT` and
`RESULT` stay, nothing is sent, nothing is accepted, and each step consumes one bit. -/
def Obligations.CollapsedIntervalNeverResponds : Prop :=
  ∀ (s : State), Collapsed s → ∀ k : Nat, ∃ t : State, core.run k s = .next t ∧
    Collapsed t ∧ t.p = s.p ∧ t.nemit = s.nemit ∧ t.result = s.result ∧ t.rspPort = s.rspPort ∧
    t.cmdPort = s.cmdPort ∧ t.low = s.low ∧ t.high = s.high ∧ Consumed k s t

/-- R101. From an interval whose lower endpoint is a NaN nothing is ever emitted again and no response is sent. -/
def Obligations.NaNIntervalNeverEmits : Prop :=
  ∀ (s : State), NaNInterval s → ∀ k : Nat, ∃ t : State, core.run k s = .next t ∧
    NaNInterval t ∧ t.nemit = s.nemit ∧ t.result = s.result ∧ t.rspPort = s.rspPort ∧ Consumed k s t

/-- R99. A zero-width interval away from the threshold: every step emits the bit its place decides, keeps zero width
under the map of R99 and draws nothing, and `WORD_DONE` persists it. -/
def Obligations.ZeroWidthIntervalIsDead : Prop :=
  ∀ s : State, s.phase = .run → s.resetPending = false → s.wlow = s.whigh →
    isNaN s.wlow = false → isNaN s.p = false → feq s.wlow s.p = false →
    (s.nemit.toNat ≠ 32 → ∃ t, step s = .next t ∧ NoEntropyUsed s t ∧ t.wlow = t.whigh ∧
      t.wlow = (if flt s.wlow s.p then fmul s.wlow s.pRecip else fmul (fsub s.wlow s.p) s.qRecip) ∧
      t.nemit = s.nemit + 1#6 ∧ t.result = (s.result <<< 1) ||| (if flt s.wlow s.p then 1#32 else 0#32)) ∧
    (s.nemit.toNat = 32 → ∃ t, step s = .next t ∧ NoEntropyUsed s t ∧ t.low = s.wlow ∧ t.high = s.wlow)

/-! ### Encodings (30_encoding.md) -/

/-- R43, R49, R50. Decoding the word of any instruction gives it back, for every operand. -/
def Obligations.DecodeOfEncode : Prop :=
  ∀ i : Instr, decode (encode i) = .ok i

/-- R47. Every command word decodes: bit 64 clear is `CREATE` of the low 64 bits, bit 64 set is `NEXT` whatever they
hold. -/
def Obligations.CommandDecodeIsTotal : Prop :=
  ∀ arg : Word,
    decode { format := .c, value := arg.toNat } = .ok (.create arg) ∧
    decode { format := .c, value := 2 ^ 64 + arg.toNat } = .ok .next

/-- R47, R49, R50, R52. What the decoder accepts lies in the opcode table's row of what it answers; it refuses exactly the
words too wide for their format. -/
def Obligations.DecodedWordLiesInTableRow : Prop :=
  ∀ e : Encoded,
    (∀ i, decode e = .ok i → (tableRow i).admits e = true) ∧
    ((∃ i, decode e = .ok i) ↔ e.value < 2 ^ e.format.width) ∧
    (∀ err, decode e = .error err → err = .wordTooWide e.format)

/-- R43, R49, R50. Words written out from the spec's tables decode to the instruction they stand for: one of each
family. -/
def Obligations.SpecWordsDecode : Prop :=
  decode { format := .c, value := 0x03FE8000000000000 } = .ok (.create 0x3FE8000000000000#64) ∧
  decode { format := .c, value := 0x1DEADBEEFDEADBEEF } = .ok .next ∧
  decode { format := .sel, value := 0b011 } = .ok .emit1 ∧
  decode { format := .sel, value := 0b001 } = .ok .emit0 ∧
  decode { format := .sel, value := 0b101 } = .ok .wordDone ∧
  decode { format := .empty, value := 0b1 } = .ok .refill

/-! ### Numbers (10_state.md section 6) -/

/-- R28. The comparisons: false with a NaN; by value on finite patterns, so that the two zeros are equal; by unsigned
comparison of the patterns where both have sign bit 0; `fgt` is `flt` turned round. -/
def Obligations.ComparisonsFollowValues : Prop :=
  (∀ a b : Word, isNaN a = true ∨ isNaN b = true → flt a b = false ∧ fgt a b = false ∧ feq a b = false) ∧
  (∀ (a b : Word) (u v : Int), finiteUnits a = some u → finiteUnits b = some v →
    flt a b = decide (u < v) ∧ feq a b = decide (u = v)) ∧
  (∀ a b : Word, signBit a = false → signBit b = false → isNaN a = false → isNaN b = false →
    flt a b = decide (a.toNat < b.toNat)) ∧
  (∀ a b : Word, fgt a b = flt b a) ∧
  feq 0x0000000000000000#64 0x8000000000000000#64 = true

/-- R27. On finite operands each operation is the exact result rounded once to nearest, ties to even, overflow giving an
infinity. -/
def Obligations.FloatCorrectlyRounded : Prop :=
  ∀ (a b : Word) (s t : Bool) (m n : Nat), valueOf a = .fin s m → valueOf b = .fin t n →
    RoundedToNearest (fadd a b) (signedUnits s m + signedUnits t n) 1 ∧
    RoundedToNearest (fsub a b) (signedUnits s m - signedUnits t n) 1 ∧
    RoundedToNearest (fmul a b) (signedUnits s m * signedUnits t n) unitsInOne ∧
    (n ≠ 0 → RoundedToNearest (fdiv a b) (signedUnits (s ^^ t) m * unitsInOne) n)

/-- R27. The IEEE default results: a NaN operand gives a NaN; `inf - inf`, `0 * inf`, `0/0` and `inf/inf` give a NaN; a
non-zero finite number over zero gives the infinity of the product sign; the other operations on an infinity (what R27
does not spell out is IEEE 754's default result, log 11). -/
def Obligations.FloatExceptionalResults : Prop :=
  (∀ a b : Word, isNaN a = true ∨ isNaN b = true →
    isNaN (fadd a b) = true ∧ isNaN (fsub a b) = true ∧ isNaN (fmul a b) = true ∧ isNaN (fdiv a b) = true) ∧
  (∀ (a b : Word) (s t : Bool), valueOf a = .inf s → valueOf b = .inf t →
    (s ≠ t → isNaN (fadd a b) = true) ∧ (s = t → valueOf (fadd a b) = .inf s) ∧
    (s = t → isNaN (fsub a b) = true) ∧ (s ≠ t → valueOf (fsub a b) = .inf s) ∧
    valueOf (fmul a b) = .inf (s ^^ t) ∧ isNaN (fdiv a b) = true) ∧
  (∀ (a b : Word) (s t : Bool) (n : Nat), valueOf a = .inf s → valueOf b = .fin t n →
    valueOf (fadd a b) = .inf s ∧ valueOf (fadd b a) = .inf s ∧
    valueOf (fsub a b) = .inf s ∧ valueOf (fsub b a) = .inf (!s) ∧
    (n = 0 → isNaN (fmul a b) = true ∧ isNaN (fmul b a) = true) ∧
    (n ≠ 0 → valueOf (fmul a b) = .inf (s ^^ t) ∧ valueOf (fmul b a) = .inf (s ^^ t)) ∧
    valueOf (fdiv a b) = .inf (s ^^ t) ∧ valueOf (fdiv b a) = .fin (s ^^ t) 0) ∧
  (∀ (a b : Word) (s t : Bool) (m : Nat), valueOf a = .fin s m → valueOf b = .fin t 0 →
    (m = 0 → isNaN (fdiv a b) = true) ∧ (m ≠ 0 → valueOf (fdiv a b) = .inf (s ^^ t)))
end

