-- ==== Sys2Proof/Laws/Decode.lean ====
section
/-! SUPPORT. The decoder on a word of each format: the check of the width passes, and the number is the word again. -/

namespace Sys2Proof

/-- A raw word that fits is decoded in its format. -/
theorem decode_of_fits {e : Encoded} (h : e.value < 2 ^ e.format.width) :
    decode e = .ok (match e.format with
      | .c => decodeCommand (BitVec.ofNat 65 e.value)
      | .sel => decodeSel (BitVec.ofNat 3 e.value)
      | .empty => decodeEmpty (BitVec.ofNat 1 e.value)) := by
  have hw : e.wf = true := decide_eq_true h
  obtain ⟨f, v⟩ := e
  cases f <;> exact if_pos hw

/-- A raw word that does not fit is refused by name. -/
theorem decode_of_too_wide {e : Encoded} (h : ¬ e.value < 2 ^ e.format.width) :
    decode e = .error (.wordTooWide e.format) := by
  simp [decode, Encoded.wf, h]

theorem decode_command (w : CmdWord) : decode { format := .c, value := w.toNat } = .ok (decodeCommand w) := by
  rw [decode_of_fits w.isLt]
  simp

theorem decode_selector (w : BitVec 3) : decode { format := .sel, value := w.toNat } = .ok (decodeSel w) := by
  rw [decode_of_fits w.isLt]
  simp

theorem decode_empty (w : BitVec 1) : decode { format := .empty, value := w.toNat } = .ok (decodeEmpty w) := by
  rw [decode_of_fits w.isLt]
  simp

/-- The top bit of a command word, by its number. -/
theorem command_bit_iff (w : CmdWord) : w.getLsbD 64 = true ↔ 2 ^ 64 ≤ w.toNat := by
  have hw := w.isLt
  rw [BitVec.getLsbD, Nat.testBit_eq_decide_div_mod_eq, decide_eq_true_eq]
  omega

end Sys2Proof
end

