-- ==== Sys2Proof/Laws/Float.lean ====
section
/-! SUPPORT. The lemmas of the binary64 definitions: the magnitude of a pattern as a function of its 63 low bits is
strictly increasing; rounding is described once (`roundUnits_spec`), fixes every representable number and is bounded by
every representable bound; the pattern built by `packSign` has the value it was built from; the NaN of an invalid
operation is a NaN whatever its free values are. -/

namespace Sys2Proof.Machine

/-- The magnitude that 63 low bits stand for, in units of `2^-1074`, as a function of the number they make. -/
def magOf (n : Nat) : Nat :=
  if n / 2 ^ 52 = 0 then n % 2 ^ 52 else (2 ^ 52 + n % 2 ^ 52) * 2 ^ (n / 2 ^ 52 - 1)

theorem expField_toNat (b : Word) : (expField b).toNat = b.toNat % 2 ^ 63 / 2 ^ 52 := by
  simp only [expField, BitVec.extractLsb'_toNat, Nat.shiftRight_eq_div_pow]
  omega

theorem fracField_toNat (b : Word) : (fracField b).toNat = b.toNat % 2 ^ 63 % 2 ^ 52 := by
  simp only [fracField, BitVec.extractLsb'_toNat, Nat.shiftRight_eq_div_pow]
  omega

theorem expField_eq_iff (b : Word) (v : BitVec 11) : expField b = v ↔ b.toNat % 2 ^ 63 / 2 ^ 52 = v.toNat := by
  rw [← expField_toNat]
  exact ⟨fun h => by rw [h], BitVec.eq_of_toNat_eq⟩

theorem fracField_eq_zero_iff (b : Word) : fracField b = 0#52 ↔ b.toNat % 2 ^ 63 % 2 ^ 52 = 0 := by
  rw [← fracField_toNat]
  exact ⟨fun h => by rw [h]; rfl, fun h => BitVec.eq_of_toNat_eq (by simpa using h)⟩

/-- A pattern is a NaN exactly when its 63 low bits are above those of `+infinity`. -/
theorem isNaN_iff (b : Word) : isNaN b = true ↔ infMagnitude < b.toNat % 2 ^ 63 := by
  simp only [isNaN, Bool.and_eq_true, beq_iff_eq, bne_iff_ne, ne_eq, expField_eq_iff, fracField_eq_zero_iff,
    infMagnitude]
  have : (2047#11).toNat = 2047 := rfl
  omega

/-- A pattern is an infinity exactly when its 63 low bits are those of `+infinity`. -/
theorem isInf_iff (b : Word) : isInf b = true ↔ b.toNat % 2 ^ 63 = infMagnitude := by
  simp only [isInf, Bool.and_eq_true, beq_iff_eq, expField_eq_iff, fracField_eq_zero_iff, infMagnitude]
  have : (2047#11).toNat = 2047 := rfl
  omega

theorem magnitude_eq (b : Word) : magnitude b = magOf (b.toNat % 2 ^ 63) := by
  have h := expField_eq_iff b 0#11
  simp only [magnitude, magOf, expField_toNat, fracField_toNat]
  by_cases he : expField b = 0#11
  · rw [if_pos he, if_pos (by simpa using h.mp he)]
  · rw [if_neg he, if_neg (fun e => he (h.mpr (by simpa using e)))]

/-- The sign bit is the top bit. -/
theorem signBit_iff (b : Word) : signBit b = true ↔ 2 ^ 63 ≤ b.toNat := by
  have hb := b.isLt
  rw [signBit, BitVec.getLsbD, Nat.testBit_eq_decide_div_mod_eq, decide_eq_true_eq]
  omega

/-- What `valueOf` gives, by the 63 low bits. -/
theorem valueOf_nan {b : Word} (h : infMagnitude < b.toNat % 2 ^ 63) : valueOf b = .nan := by
  rw [valueOf, if_pos ((isNaN_iff b).mpr h)]

theorem valueOf_inf {b : Word} (h : b.toNat % 2 ^ 63 = infMagnitude) : valueOf b = .inf (signBit b) := by
  have hn : isNaN b ≠ true := fun e => by have := (isNaN_iff b).mp e; omega
  rw [valueOf, if_neg hn, if_pos ((isInf_iff b).mpr h)]

theorem valueOf_fin {b : Word} (h : b.toNat % 2 ^ 63 < infMagnitude) :
    valueOf b = .fin (signBit b) (magOf (b.toNat % 2 ^ 63)) := by
  have hn : isNaN b ≠ true := fun e => by have := (isNaN_iff b).mp e; omega
  have hi : isInf b ≠ true := fun e => by have := (isInf_iff b).mp e; omega
  rw [valueOf, if_neg hn, if_neg hi, magnitude_eq]

/-- `valueOf` says NaN exactly of the NaNs. -/
theorem valueOf_eq_nan_iff (b : Word) : valueOf b = .nan ↔ isNaN b = true := by
  rcases Nat.lt_trichotomy (b.toNat % 2 ^ 63) infMagnitude with h | h | h
  · rw [valueOf_fin h, isNaN_iff]; simp; omega
  · rw [valueOf_inf h, isNaN_iff]; simp; omega
  · exact ⟨fun _ => (isNaN_iff b).mpr h, fun _ => valueOf_nan h⟩

/-- The quiet NaN is a NaN, whatever the free values are. -/
@[simp] theorem isNaN_quietNaN (o : FOp) (a b : Word) : isNaN (quietNaN o a b) = true := by
  have he : expField (quietNaN o a b) = 2047#11 := by
    apply BitVec.eq_of_getLsbD_eq
    intro i hi
    simp only [expField, quietNaN, BitVec.getLsbD_extractLsb', BitVec.getLsbD_append]
    interval_cases i <;> simp
  have hf : (fracField (quietNaN o a b)).getLsbD 51 = true := by
    rw [fracField, BitVec.getLsbD_extractLsb', quietNaN, BitVec.getLsbD_append, BitVec.getLsbD_append]
    rfl
  have hz : fracField (quietNaN o a b) ≠ 0#52 := fun e => by rw [e] at hf; simp at hf
  simp [isNaN, he, hz]

@[simp] theorem valueOf_quietNaN (o : FOp) (a b : Word) : valueOf (quietNaN o a b) = .nan :=
  (valueOf_eq_nan_iff _).mpr (isNaN_quietNaN o a b)

theorem packSign_toNat (neg : Bool) {n : Nat} (h : n < 2 ^ 63) :
    (packSign neg n).toNat = (if neg then 2 ^ 63 else 0) + n := by
  rw [packSign, BitVec.toNat_ofNat, Nat.mod_eq_of_lt]
  split <;> omega

theorem packSign_low (neg : Bool) {n : Nat} (h : n < 2 ^ 63) : (packSign neg n).toNat % 2 ^ 63 = n := by
  rw [packSign_toNat neg h]
  split <;> omega

theorem signBit_packSign (neg : Bool) {n : Nat} (h : n < 2 ^ 63) : signBit (packSign neg n) = neg := by
  have := signBit_iff (packSign neg n)
  rw [packSign_toNat neg h] at this
  cases neg
  · exact Bool.eq_false_iff.mpr fun e => by have := this.mp e; simp only [Bool.false_eq_true, if_false] at this; omega
  · exact this.mpr (by simp)

/-- A packed finite pattern has its sign and magnitude. -/
theorem valueOf_packSign (neg : Bool) {n : Nat} (h : n < infMagnitude) :
    valueOf (packSign neg n) = .fin neg (magOf n) := by
  have h63 : n < 2 ^ 63 := by simp only [infMagnitude] at h; omega
  rw [valueOf_fin (by rwa [packSign_low neg h63]), signBit_packSign neg h63, packSign_low neg h63]

@[simp] theorem valueOf_infinity (neg : Bool) : valueOf (infinity neg) = .inf neg := by
  have h63 : infMagnitude < 2 ^ 63 := by decide
  rw [infinity, valueOf_inf (packSign_low neg h63), signBit_packSign neg h63]

/-- A significand `m` of weight `2^k` units: the magnitude of the pattern `k * 2^52 + m`, a carry to `2^53` included. -/
theorem magOf_pack {k m : Nat} (hk : k = 0 ∨ 2 ^ 52 ≤ m) (hm : m ≤ 2 ^ 53) :
    magOf (k * 2 ^ 52 + m) = m * 2 ^ k := by
  unfold magOf
  by_cases h53 : m = 2 ^ 53
  · subst h53
    have hd : (k * 2 ^ 52 + 2 ^ 53) / 2 ^ 52 = k + 2 := by omega
    have hr : (k * 2 ^ 52 + 2 ^ 53) % 2 ^ 52 = 0 := by omega
    rw [hd, hr, if_neg (by omega), show k + 2 - 1 = k + 1 from rfl, pow_succ 2 k]
    ring
  · by_cases hlow : m < 2 ^ 52
    · have h0 : k = 0 := by omega
      subst h0
      rw [if_pos (by omega)]
      omega
    · have hd : (k * 2 ^ 52 + m) / 2 ^ 52 = k + 1 := by omega
      have hr : 2 ^ 52 + (k * 2 ^ 52 + m) % 2 ^ 52 = m := by omega
      rw [hd, hr, if_neg (by omega), Nat.add_sub_cancel]

/-- Every number of low bits is a significand with a weight. -/
theorem exists_pack (n : Nat) :
    ∃ k m, n = k * 2 ^ 52 + m ∧ (k = 0 ∨ 2 ^ 52 ≤ m) ∧ m < 2 ^ 53 := by
  by_cases h : n < 2 ^ 53
  · exact ⟨0, n, by omega, .inl rfl, h⟩
  · exact ⟨n / 2 ^ 52 - 1, 2 ^ 52 + n % 2 ^ 52, by omega, .inr (by omega), by omega⟩

theorem magOf_lt_succ (n : Nat) : magOf n < magOf (n + 1) := by
  obtain ⟨k, m, rfl, hk, hm⟩ := exists_pack n
  rw [magOf_pack hk (by omega), Nat.add_assoc, magOf_pack (by omega) (by omega)]
  exact Nat.mul_lt_mul_of_pos_right (by omega) (by positivity)

/-- A larger pattern of the same sign is a larger magnitude. -/
theorem magOf_strictMono : StrictMono magOf := strictMono_nat_of_lt_succ magOf_lt_succ

@[simp] theorem magOf_zero : magOf 0 = 0 := rfl

/-- What rounding does: the significand `m'` is the quotient `m` or its successor, whichever is nearer, the even one on a
tie; the quotient has 53 bits, or fewer when the weight is one unit. -/
theorem roundUnits_spec (num : Nat) {den : Nat} (hd : 0 < den) :
    ∃ k m r m', roundUnits num den = min (k * 2 ^ 52 + m') infMagnitude ∧
      (k = 0 ∨ 2 ^ 52 ≤ m) ∧ m < 2 ^ 53 ∧ num = den * 2 ^ k * m + r ∧ r < den * 2 ^ k ∧
      ((m' = m ∧ 2 * r ≤ den * 2 ^ k ∧ (2 * r = den * 2 ^ k → m % 2 = 0)) ∨
       (m' = m + 1 ∧ den * 2 ^ k ≤ 2 * r ∧ (2 * r = den * 2 ^ k → m % 2 = 1))) := by
  have hdk : 0 < den * 2 ^ ((num / den).log2 - 52) := Nat.mul_pos hd (by positivity)
  have hm : num / (den * 2 ^ ((num / den).log2 - 52)) = num / den / 2 ^ ((num / den).log2 - 52) :=
    (Nat.div_div_eq_div_mul ..).symm
  refine ⟨(num / den).log2 - 52, num / (den * 2 ^ ((num / den).log2 - 52)),
    num % (den * 2 ^ ((num / den).log2 - 52)), _, rfl, ?_, ?_, (Nat.div_add_mod ..).symm, Nat.mod_lt _ hdk, ?_⟩
  · by_cases hk : (num / den).log2 - 52 = 0
    · exact .inl hk
    · refine .inr ?_
      rw [hm, Nat.le_div_iff_mul_le (by positivity), ← pow_add]
      have hq : num / den ≠ 0 := fun e => hk (by rw [e]; rfl)
      have hle := Nat.log2_self_le hq
      rwa [show 52 + ((num / den).log2 - 52) = (num / den).log2 by omega]
  · rw [hm, Nat.div_lt_iff_lt_mul (by positivity), ← pow_add]
    refine lt_of_lt_of_le (Nat.lt_log2_self (n := num / den)) (Nat.pow_le_pow_right (by omega) (by omega))
  · simp only [Bool.or_eq_true, decide_eq_true_eq, Bool.and_eq_true, beq_iff_eq]
    split <;> omega

/-- Rounding fixes a representable number. -/
theorem roundUnits_exact {n den : Nat} (hd : 0 < den) (hn : n ≤ infMagnitude) :
    roundUnits (magOf n * den) den = n := by
  obtain ⟨k, m, rfl, hk, hm⟩ := exists_pack n
  rw [magOf_pack hk (by omega)]
  have hq : m * 2 ^ k * den / den = m * 2 ^ k := Nat.mul_div_cancel _ hd
  have hlog : (m * 2 ^ k).log2 - 52 = k := by
    rcases hk with rfl | hk
    · rw [pow_zero, mul_one]
      by_cases h0 : m = 0
      · subst h0; rfl
      · have := (Nat.log2_lt h0).mpr hm; omega
    · have h0 : m * 2 ^ k ≠ 0 := by positivity
      have hlt : (m * 2 ^ k).log2 < 53 + k := by
        rw [Nat.log2_lt h0, pow_add]; exact Nat.mul_lt_mul_of_pos_right hm (by positivity)
      have hle : 52 + k ≤ (m * 2 ^ k).log2 := by
        rw [Nat.le_log2 h0, pow_add]; exact Nat.mul_le_mul_right _ hk
      omega
  have hdk : 0 < den * 2 ^ k := Nat.mul_pos hd (by positivity)
  have hnum : m * 2 ^ k * den = den * 2 ^ k * m := by ring
  simp only [roundUnits, hq, hlog]
  rw [hnum, Nat.mul_div_cancel_left _ hdk, Nat.mul_mod_right]
  have hno : (decide (den * 2 ^ k < 2 * 0) || 2 * 0 == den * 2 ^ k && m % 2 == 1) = false := by
    have h1 : ¬ den * 2 ^ k < 2 * 0 := by omega
    have h2 : ¬ 2 * 0 = den * 2 ^ k := by omega
    rw [decide_eq_false h1, beq_eq_false_iff_ne.mpr h2]
    rfl
  rw [hno]
  simpa using hn

/-- A number not above a representable bound does not round above it. -/
theorem roundUnits_le {num den n : Nat} (hd : 0 < den) (h : num ≤ magOf n * den) : roundUnits num den ≤ n := by
  obtain ⟨k, m, r, m', hround, hk, hm, hnum, hr, hcase⟩ := roundUnits_spec num hd
  rw [hround]
  refine le_trans (min_le_left _ _) ?_
  by_contra hlt
  have hd' : 0 < den * 2 ^ k := Nat.mul_pos hd (by positivity)
  have hle : n ≤ k * 2 ^ 52 + (m' - 1) := by omega
  have hstep : magOf n * den ≤ num - r ∧ 0 < m' := by
    rcases hcase with ⟨rfl, hc⟩ | ⟨rfl, hc⟩
    · have hlt' := magOf_strictMono (show n < k * 2 ^ 52 + m' by omega)
      rw [magOf_pack hk (by omega)] at hlt'
      have h2 : magOf n * den < m' * 2 ^ k * den := Nat.mul_lt_mul_of_pos_right hlt' hd
      have h3 : m' * 2 ^ k * den = den * 2 ^ k * m' := by ring
      omega
    · have h1 := magOf_strictMono.monotone hle
      rw [Nat.add_sub_cancel, magOf_pack hk (by omega)] at h1
      have h2 : magOf n * den ≤ m * 2 ^ k * den := Nat.mul_le_mul_right _ h1
      have h3 : m * 2 ^ k * den = den * 2 ^ k * m := by ring
      omega
  rcases hcase with ⟨rfl, hc⟩ | ⟨rfl, hc⟩
  · have hlt' := magOf_strictMono (show n < k * 2 ^ 52 + m' by omega)
    rw [magOf_pack hk (by omega)] at hlt'
    have h2 : magOf n * den < m' * 2 ^ k * den := Nat.mul_lt_mul_of_pos_right hlt' hd
    have h3 : m' * 2 ^ k * den = den * 2 ^ k * m' := by ring
    omega
  · omega

/-- A number not below a representable bound does not round below it. -/
theorem le_roundUnits {num den n : Nat} (hd : 0 < den) (hn : n ≤ infMagnitude) (h : magOf n * den ≤ num) :
    n ≤ roundUnits num den := by
  obtain ⟨k, m, r, m', hround, hk, hm, hnum, hr, hcase⟩ := roundUnits_spec num hd
  rw [hround]
  refine le_min ?_ hn
  by_contra hlt
  have hbound : k * 2 ^ 52 + (m + 1) ≤ n := by
    rcases hcase with ⟨rfl, -⟩ | ⟨rfl, -⟩ <;> omega
  have h1 := magOf_strictMono.monotone hbound
  rw [magOf_pack (by omega) (by omega)] at h1
  have h2 : (m + 1) * 2 ^ k * den ≤ magOf n * den := Nat.mul_le_mul_right _ h1
  have h3 : (m + 1) * 2 ^ k * den = den * 2 ^ k * m + den * 2 ^ k := by ring
  omega

/-- No rounding goes past `+infinity`. -/
theorem roundUnits_le_inf (num den : Nat) : roundUnits num den ≤ infMagnitude := min_le_right _ _

/-- The unit scale under another spelling of its exponent. -/
theorem unitsInOne_eq {k : Nat} (hk : k = 1074) : unitsInOne = 2 ^ k := by
  subst hk
  unfold unitsInOne
  rfl

theorem unitsInOne_pos : 0 < unitsInOne := by
  rw [unitsInOne_eq rfl]
  positivity

/-- The magnitudes of the constants of R8. -/
theorem magOf_one : magOf 0x3FF0000000000000 = unitsInOne := by
  rw [show (0x3FF0000000000000 : Nat) = 1022 * 2 ^ 52 + 2 ^ 52 by norm_num, magOf_pack (.inr le_rfl) (by norm_num),
    ← pow_add, unitsInOne_eq (k := 52 + 1022) (by norm_num)]

theorem two_mul_magOf_half : 2 * magOf 0x3FE0000000000000 = unitsInOne := by
  rw [show (0x3FE0000000000000 : Nat) = 1021 * 2 ^ 52 + 2 ^ 52 by norm_num, magOf_pack (.inr le_rfl) (by norm_num),
    ← pow_add, ← pow_succ', unitsInOne_eq (k := 52 + 1021 + 1) (by norm_num)]

@[simp] theorem valueOf_fZero : valueOf fZero = .fin false 0 := by decide
theorem valueOf_fOne : valueOf fOne = .fin false unitsInOne := by
  rw [← magOf_one]; exact valueOf_packSign false (n := 0x3FF0000000000000) (by decide)
theorem valueOf_fHalf : valueOf fHalf = .fin false (magOf 0x3FE0000000000000) :=
  valueOf_packSign false (n := 0x3FE0000000000000) (by decide)

/-- Comparisons with a NaN are false. -/
theorem flt_of_nan_left {a : Word} (h : isNaN a = true) (b : Word) : flt a b = false := by
  simp [flt, (valueOf_eq_nan_iff a).mpr h]

theorem flt_of_nan_right (a : Word) {b : Word} (h : isNaN b = true) : flt a b = false := by
  unfold flt
  rw [(valueOf_eq_nan_iff b).mpr h]
  cases valueOf a <;> rfl

/-- An operation on a NaN gives a NaN. -/
theorem isNaN_fadd_left {a : Word} (h : isNaN a = true) (b : Word) : isNaN (fadd a b) = true := by
  simp [fadd, addValues, (valueOf_eq_nan_iff a).mpr h]

theorem isNaN_fmul_right (a : Word) {b : Word} (h : isNaN b = true) : isNaN (fmul a b) = true := by
  unfold fmul
  rw [(valueOf_eq_nan_iff b).mpr h]
  cases valueOf a <;> simp


/-- The sum of two finite values is rounded once, and has the exact sum's sign. -/
theorem fadd_fin {a b : Word} {s t : Bool} {m n : Nat} (ha : valueOf a = .fin s m) (hb : valueOf b = .fin t n) :
    ∃ neg, fadd a b = roundTo neg (signedUnits s m + signedUnits t n).natAbs 1 ∧
      (signedUnits s m + signedUnits t n ≠ 0 → neg = decide (signedUnits s m + signedUnits t n < 0)) := by
  refine ⟨_, by rw [fadd, ha, hb]; rfl, fun h => ?_⟩
  rw [if_neg h]

/-- The difference of two finite values is rounded once, and has the exact difference's sign. -/
theorem fsub_fin {a b : Word} {s t : Bool} {m n : Nat} (ha : valueOf a = .fin s m) (hb : valueOf b = .fin t n) :
    ∃ neg, fsub a b = roundTo neg (signedUnits s m - signedUnits t n).natAbs 1 ∧
      (signedUnits s m - signedUnits t n ≠ 0 → neg = decide (signedUnits s m - signedUnits t n < 0)) := by
  have hneg : signedUnits (!t) n = -signedUnits t n := by cases t <;> simp [signedUnits]
  rw [Int.sub_eq_add_neg, ← hneg]
  refine ⟨_, by rw [fsub, ha, hb]; rfl, fun h => ?_⟩
  rw [if_neg h]

/-- The product of two finite values is rounded once. -/
theorem fmul_fin {a b : Word} {s t : Bool} {m n : Nat} (ha : valueOf a = .fin s m) (hb : valueOf b = .fin t n) :
    fmul a b = roundTo (s ^^ t) (m * n) unitsInOne := by
  rw [fmul, ha, hb]

/-- The quotient of a finite value by a finite value other than zero is rounded once. -/
theorem fdiv_fin {a b : Word} {s t : Bool} {m n : Nat} (ha : valueOf a = .fin s m) (hb : valueOf b = .fin t n)
    (hn : n ≠ 0) : fdiv a b = roundTo (s ^^ t) (m * unitsInOne) n := by
  rw [fdiv, ha, hb]
  exact if_neg hn

/-- A pattern with sign bit 0 below `+infinity` is finite and not negative. -/
theorem valueOf_nonneg {a : Word} (h : a.toNat < infMagnitude) : valueOf a = .fin false (magOf a.toNat) := by
  have hi : infMagnitude < 2 ^ 63 := by decide
  have hm : a.toNat % 2 ^ 63 = a.toNat := by omega
  have hs : signBit a = false := Bool.eq_false_iff.mpr fun e => by have := (signBit_iff a).mp e; omega
  rw [valueOf_fin (by rwa [hm]), hs, hm]

/-- A non-negative rounding, as a number. -/
theorem roundTo_toNat (num den : Nat) : (roundTo false num den).toNat = roundUnits num den := by
  have hi : infMagnitude < 2 ^ 63 := by decide
  rw [roundTo, packSign_toNat _ (lt_of_le_of_lt (roundUnits_le_inf num den) hi)]
  simp

end Sys2Proof.Machine
end

