-- ==== Sys2Proof/Laws/State.lean ====
section
/-! SUPPORT. One lemma for each field of State and each named update: what the field holds afterwards. True by
definition; simp uses them so that no proof unfolds a record update. -/

namespace Sys2Proof.Machine

@[simp] theorem State.accept_p (s : State) (o : Op) : (s.accept o).p = s.p := rfl
@[simp] theorem State.accept_low (s : State) (o : Op) : (s.accept o).low = s.low := rfl
@[simp] theorem State.accept_high (s : State) (o : Op) : (s.accept o).high = s.high := rfl
@[simp] theorem State.accept_rsvBits (s : State) (o : Op) : (s.accept o).rsvBits = s.rsvBits := rfl
@[simp] theorem State.accept_rsvCnt (s : State) (o : Op) : (s.accept o).rsvCnt = s.rsvCnt := rfl
@[simp] theorem State.accept_wlow (s : State) (o : Op) : (s.accept o).wlow = s.wlow := rfl
@[simp] theorem State.accept_whigh (s : State) (o : Op) : (s.accept o).whigh = s.whigh := rfl
@[simp] theorem State.accept_pRecip (s : State) (o : Op) : (s.accept o).pRecip = s.pRecip := rfl
@[simp] theorem State.accept_qRecip (s : State) (o : Op) : (s.accept o).qRecip = s.qRecip := rfl
@[simp] theorem State.accept_result (s : State) (o : Op) : (s.accept o).result = s.result := rfl
@[simp] theorem State.accept_nemit (s : State) (o : Op) : (s.accept o).nemit = s.nemit := rfl
@[simp] theorem State.accept_valid (s : State) (o : Op) : (s.accept o).valid = s.valid := rfl
@[simp] theorem State.accept_phase (s : State) (o : Op) : (s.accept o).phase = s.phase := rfl
@[simp] theorem State.accept_op (s : State) (o : Op) : (s.accept o).op = o := rfl
@[simp] theorem State.accept_entIdx (s : State) (o : Op) : (s.accept o).entIdx = s.entIdx := rfl
@[simp] theorem State.accept_bit (s : State) (o : Op) : (s.accept o).bit = s.bit := rfl
@[simp] theorem State.accept_cmdPort (s : State) (o : Op) : (s.accept o).cmdPort = s.cmdPort.tail := rfl
@[simp] theorem State.accept_rspPort (s : State) (o : Op) : (s.accept o).rspPort = s.rspPort := rfl
@[simp] theorem State.accept_entPort (s : State) (o : Op) : (s.accept o).entPort = s.entPort := rfl
@[simp] theorem State.accept_entSilent (s : State) (o : Op) : (s.accept o).entSilent = s.entSilent := rfl
@[simp] theorem State.accept_resetPending (s : State) (o : Op) : (s.accept o).resetPending = s.resetPending := rfl
@[simp] theorem State.accept_freeIdx (s : State) (o : Op) : (s.accept o).freeIdx = s.freeIdx := rfl

@[simp] theorem State.respond_p (s : State) (st : BitVec 2) (d : BitVec 32) : (s.respond st d).p = s.p := rfl
@[simp] theorem State.respond_low (s : State) (st : BitVec 2) (d : BitVec 32) : (s.respond st d).low = s.low := rfl
@[simp] theorem State.respond_high (s : State) (st : BitVec 2) (d : BitVec 32) : (s.respond st d).high = s.high := rfl
@[simp] theorem State.respond_rsvBits (s : State) (st : BitVec 2) (d : BitVec 32) : (s.respond st d).rsvBits = s.rsvBits := rfl
@[simp] theorem State.respond_rsvCnt (s : State) (st : BitVec 2) (d : BitVec 32) : (s.respond st d).rsvCnt = s.rsvCnt := rfl
@[simp] theorem State.respond_wlow (s : State) (st : BitVec 2) (d : BitVec 32) : (s.respond st d).wlow = s.wlow := rfl
@[simp] theorem State.respond_whigh (s : State) (st : BitVec 2) (d : BitVec 32) : (s.respond st d).whigh = s.whigh := rfl
@[simp] theorem State.respond_pRecip (s : State) (st : BitVec 2) (d : BitVec 32) : (s.respond st d).pRecip = s.pRecip := rfl
@[simp] theorem State.respond_qRecip (s : State) (st : BitVec 2) (d : BitVec 32) : (s.respond st d).qRecip = s.qRecip := rfl
@[simp] theorem State.respond_result (s : State) (st : BitVec 2) (d : BitVec 32) : (s.respond st d).result = s.result := rfl
@[simp] theorem State.respond_nemit (s : State) (st : BitVec 2) (d : BitVec 32) : (s.respond st d).nemit = s.nemit := rfl
@[simp] theorem State.respond_valid (s : State) (st : BitVec 2) (d : BitVec 32) : (s.respond st d).valid = s.valid := rfl
@[simp] theorem State.respond_phase (s : State) (st : BitVec 2) (d : BitVec 32) : (s.respond st d).phase = .idle := rfl
@[simp] theorem State.respond_op (s : State) (st : BitVec 2) (d : BitVec 32) : (s.respond st d).op = s.op := rfl
@[simp] theorem State.respond_entIdx (s : State) (st : BitVec 2) (d : BitVec 32) : (s.respond st d).entIdx = s.entIdx := rfl
@[simp] theorem State.respond_bit (s : State) (st : BitVec 2) (d : BitVec 32) : (s.respond st d).bit = s.bit := rfl
@[simp] theorem State.respond_cmdPort (s : State) (st : BitVec 2) (d : BitVec 32) : (s.respond st d).cmdPort = s.cmdPort := rfl
@[simp] theorem State.respond_rspPort (s : State) (st : BitVec 2) (d : BitVec 32) : (s.respond st d).rspPort = s.rspPort ++ [rspWord st d] := rfl
@[simp] theorem State.respond_entPort (s : State) (st : BitVec 2) (d : BitVec 32) : (s.respond st d).entPort = s.entPort := rfl
@[simp] theorem State.respond_entSilent (s : State) (st : BitVec 2) (d : BitVec 32) : (s.respond st d).entSilent = s.entSilent := rfl
@[simp] theorem State.respond_resetPending (s : State) (st : BitVec 2) (d : BitVec 32) : (s.respond st d).resetPending = s.resetPending := rfl
@[simp] theorem State.respond_freeIdx (s : State) (st : BitVec 2) (d : BitVec 32) : (s.respond st d).freeIdx = s.freeIdx := rfl

@[simp] theorem State.construct_p (s : State) (arg : Word) : (s.construct arg).p = arg := rfl
@[simp] theorem State.construct_low (s : State) (arg : Word) : (s.construct arg).low = fZero := rfl
@[simp] theorem State.construct_high (s : State) (arg : Word) : (s.construct arg).high = fOne := rfl
@[simp] theorem State.construct_rsvBits (s : State) (arg : Word) : (s.construct arg).rsvBits = 0#64 := rfl
@[simp] theorem State.construct_rsvCnt (s : State) (arg : Word) : (s.construct arg).rsvCnt = 0#7 := rfl
@[simp] theorem State.construct_wlow (s : State) (arg : Word) : (s.construct arg).wlow = s.wlow := rfl
@[simp] theorem State.construct_whigh (s : State) (arg : Word) : (s.construct arg).whigh = s.whigh := rfl
@[simp] theorem State.construct_pRecip (s : State) (arg : Word) : (s.construct arg).pRecip = s.pRecip := rfl
@[simp] theorem State.construct_qRecip (s : State) (arg : Word) : (s.construct arg).qRecip = s.qRecip := rfl
@[simp] theorem State.construct_result (s : State) (arg : Word) : (s.construct arg).result = s.result := rfl
@[simp] theorem State.construct_nemit (s : State) (arg : Word) : (s.construct arg).nemit = s.nemit := rfl
@[simp] theorem State.construct_valid (s : State) (arg : Word) : (s.construct arg).valid = true := rfl
@[simp] theorem State.construct_phase (s : State) (arg : Word) : (s.construct arg).phase = s.phase := rfl
@[simp] theorem State.construct_op (s : State) (arg : Word) : (s.construct arg).op = s.op := rfl
@[simp] theorem State.construct_entIdx (s : State) (arg : Word) : (s.construct arg).entIdx = s.entIdx := rfl
@[simp] theorem State.construct_bit (s : State) (arg : Word) : (s.construct arg).bit = s.bit := rfl
@[simp] theorem State.construct_cmdPort (s : State) (arg : Word) : (s.construct arg).cmdPort = s.cmdPort := rfl
@[simp] theorem State.construct_rspPort (s : State) (arg : Word) : (s.construct arg).rspPort = s.rspPort := rfl
@[simp] theorem State.construct_entPort (s : State) (arg : Word) : (s.construct arg).entPort = s.entPort := rfl
@[simp] theorem State.construct_entSilent (s : State) (arg : Word) : (s.construct arg).entSilent = s.entSilent := rfl
@[simp] theorem State.construct_resetPending (s : State) (arg : Word) : (s.construct arg).resetPending = s.resetPending := rfl
@[simp] theorem State.construct_freeIdx (s : State) (arg : Word) : (s.construct arg).freeIdx = s.freeIdx := rfl

@[simp] theorem State.startWord_p (s : State) : (s.startWord).p = s.p := rfl
@[simp] theorem State.startWord_low (s : State) : (s.startWord).low = s.low := rfl
@[simp] theorem State.startWord_high (s : State) : (s.startWord).high = s.high := rfl
@[simp] theorem State.startWord_rsvBits (s : State) : (s.startWord).rsvBits = s.rsvBits := rfl
@[simp] theorem State.startWord_rsvCnt (s : State) : (s.startWord).rsvCnt = s.rsvCnt := rfl
@[simp] theorem State.startWord_wlow (s : State) : (s.startWord).wlow = s.low := rfl
@[simp] theorem State.startWord_whigh (s : State) : (s.startWord).whigh = s.high := rfl
@[simp] theorem State.startWord_pRecip (s : State) : (s.startWord).pRecip = fdiv fOne s.p := rfl
@[simp] theorem State.startWord_qRecip (s : State) : (s.startWord).qRecip = fdiv fOne (fsub fOne s.p) := rfl
@[simp] theorem State.startWord_result (s : State) : (s.startWord).result = 0#32 := rfl
@[simp] theorem State.startWord_nemit (s : State) : (s.startWord).nemit = 0#6 := rfl
@[simp] theorem State.startWord_valid (s : State) : (s.startWord).valid = s.valid := rfl
@[simp] theorem State.startWord_phase (s : State) : (s.startWord).phase = .run := rfl
@[simp] theorem State.startWord_op (s : State) : (s.startWord).op = s.op := rfl
@[simp] theorem State.startWord_entIdx (s : State) : (s.startWord).entIdx = s.entIdx := rfl
@[simp] theorem State.startWord_bit (s : State) : (s.startWord).bit = s.bit := rfl
@[simp] theorem State.startWord_cmdPort (s : State) : (s.startWord).cmdPort = s.cmdPort := rfl
@[simp] theorem State.startWord_rspPort (s : State) : (s.startWord).rspPort = s.rspPort := rfl
@[simp] theorem State.startWord_entPort (s : State) : (s.startWord).entPort = s.entPort := rfl
@[simp] theorem State.startWord_entSilent (s : State) : (s.startWord).entSilent = s.entSilent := rfl
@[simp] theorem State.startWord_resetPending (s : State) : (s.startWord).resetPending = s.resetPending := rfl
@[simp] theorem State.startWord_freeIdx (s : State) : (s.startWord).freeIdx = s.freeIdx := rfl

@[simp] theorem State.emit_p (s : State) (b : Bool) (l h : Word) : (s.emit b l h).p = s.p := rfl
@[simp] theorem State.emit_low (s : State) (b : Bool) (l h : Word) : (s.emit b l h).low = s.low := rfl
@[simp] theorem State.emit_high (s : State) (b : Bool) (l h : Word) : (s.emit b l h).high = s.high := rfl
@[simp] theorem State.emit_rsvBits (s : State) (b : Bool) (l h : Word) : (s.emit b l h).rsvBits = s.rsvBits := rfl
@[simp] theorem State.emit_rsvCnt (s : State) (b : Bool) (l h : Word) : (s.emit b l h).rsvCnt = s.rsvCnt := rfl
@[simp] theorem State.emit_wlow (s : State) (b : Bool) (l h : Word) : (s.emit b l h).wlow = l := rfl
@[simp] theorem State.emit_whigh (s : State) (b : Bool) (l h : Word) : (s.emit b l h).whigh = h := rfl
@[simp] theorem State.emit_pRecip (s : State) (b : Bool) (l h : Word) : (s.emit b l h).pRecip = s.pRecip := rfl
@[simp] theorem State.emit_qRecip (s : State) (b : Bool) (l h : Word) : (s.emit b l h).qRecip = s.qRecip := rfl
@[simp] theorem State.emit_result (s : State) (b : Bool) (l h : Word) : (s.emit b l h).result = (s.result <<< 1) ||| (BitVec.ofBool b).setWidth 32 := rfl
@[simp] theorem State.emit_nemit (s : State) (b : Bool) (l h : Word) : (s.emit b l h).nemit = s.nemit + 1#6 := rfl
@[simp] theorem State.emit_valid (s : State) (b : Bool) (l h : Word) : (s.emit b l h).valid = s.valid := rfl
@[simp] theorem State.emit_phase (s : State) (b : Bool) (l h : Word) : (s.emit b l h).phase = s.phase := rfl
@[simp] theorem State.emit_op (s : State) (b : Bool) (l h : Word) : (s.emit b l h).op = s.op := rfl
@[simp] theorem State.emit_entIdx (s : State) (b : Bool) (l h : Word) : (s.emit b l h).entIdx = s.entIdx := rfl
@[simp] theorem State.emit_bit (s : State) (b : Bool) (l h : Word) : (s.emit b l h).bit = s.bit := rfl
@[simp] theorem State.emit_cmdPort (s : State) (b : Bool) (l h : Word) : (s.emit b l h).cmdPort = s.cmdPort := rfl
@[simp] theorem State.emit_rspPort (s : State) (b : Bool) (l h : Word) : (s.emit b l h).rspPort = s.rspPort := rfl
@[simp] theorem State.emit_entPort (s : State) (b : Bool) (l h : Word) : (s.emit b l h).entPort = s.entPort := rfl
@[simp] theorem State.emit_entSilent (s : State) (b : Bool) (l h : Word) : (s.emit b l h).entSilent = s.entSilent := rfl
@[simp] theorem State.emit_resetPending (s : State) (b : Bool) (l h : Word) : (s.emit b l h).resetPending = s.resetPending := rfl
@[simp] theorem State.emit_freeIdx (s : State) (b : Bool) (l h : Word) : (s.emit b l h).freeIdx = s.freeIdx := rfl

@[simp] theorem State.halve_p (s : State) : (s.halve).p = s.p := rfl
@[simp] theorem State.halve_low (s : State) : (s.halve).low = s.low := rfl
@[simp] theorem State.halve_high (s : State) : (s.halve).high = s.high := rfl
@[simp] theorem State.halve_rsvBits (s : State) : (s.halve).rsvBits = s.rsvBits := rfl
@[simp] theorem State.halve_rsvCnt (s : State) : (s.halve).rsvCnt = s.rsvCnt := rfl
@[simp] theorem State.halve_wlow (s : State) : (s.halve).wlow = if s.bit then halfSum s.wlow s.whigh else s.wlow := rfl
@[simp] theorem State.halve_whigh (s : State) : (s.halve).whigh = if s.bit then s.whigh else halfSum s.wlow s.whigh := rfl
@[simp] theorem State.halve_pRecip (s : State) : (s.halve).pRecip = s.pRecip := rfl
@[simp] theorem State.halve_qRecip (s : State) : (s.halve).qRecip = s.qRecip := rfl
@[simp] theorem State.halve_result (s : State) : (s.halve).result = s.result := rfl
@[simp] theorem State.halve_nemit (s : State) : (s.halve).nemit = s.nemit := rfl
@[simp] theorem State.halve_valid (s : State) : (s.halve).valid = s.valid := rfl
@[simp] theorem State.halve_phase (s : State) : (s.halve).phase = s.phase := rfl
@[simp] theorem State.halve_op (s : State) : (s.halve).op = s.op := rfl
@[simp] theorem State.halve_entIdx (s : State) : (s.halve).entIdx = s.entIdx := rfl
@[simp] theorem State.halve_bit (s : State) : (s.halve).bit = s.bit := rfl
@[simp] theorem State.halve_cmdPort (s : State) : (s.halve).cmdPort = s.cmdPort := rfl
@[simp] theorem State.halve_rspPort (s : State) : (s.halve).rspPort = s.rspPort := rfl
@[simp] theorem State.halve_entPort (s : State) : (s.halve).entPort = s.entPort := rfl
@[simp] theorem State.halve_entSilent (s : State) : (s.halve).entSilent = s.entSilent := rfl
@[simp] theorem State.halve_resetPending (s : State) : (s.halve).resetPending = s.resetPending := rfl
@[simp] theorem State.halve_freeIdx (s : State) : (s.halve).freeIdx = s.freeIdx := rfl

@[simp] theorem State.consumeWord_p (s : State) : (s.consumeWord).p = s.p := rfl
@[simp] theorem State.consumeWord_low (s : State) : (s.consumeWord).low = s.low := rfl
@[simp] theorem State.consumeWord_high (s : State) : (s.consumeWord).high = s.high := rfl
@[simp] theorem State.consumeWord_rsvBits (s : State) : (s.consumeWord).rsvBits = s.rsvBits := rfl
@[simp] theorem State.consumeWord_rsvCnt (s : State) : (s.consumeWord).rsvCnt = s.rsvCnt := rfl
@[simp] theorem State.consumeWord_wlow (s : State) : (s.consumeWord).wlow = s.wlow := rfl
@[simp] theorem State.consumeWord_whigh (s : State) : (s.consumeWord).whigh = s.whigh := rfl
@[simp] theorem State.consumeWord_pRecip (s : State) : (s.consumeWord).pRecip = s.pRecip := rfl
@[simp] theorem State.consumeWord_qRecip (s : State) : (s.consumeWord).qRecip = s.qRecip := rfl
@[simp] theorem State.consumeWord_result (s : State) : (s.consumeWord).result = s.result := rfl
@[simp] theorem State.consumeWord_nemit (s : State) : (s.consumeWord).nemit = s.nemit := rfl
@[simp] theorem State.consumeWord_valid (s : State) : (s.consumeWord).valid = s.valid := rfl
@[simp] theorem State.consumeWord_phase (s : State) : (s.consumeWord).phase = s.phase := rfl
@[simp] theorem State.consumeWord_op (s : State) : (s.consumeWord).op = s.op := rfl
@[simp] theorem State.consumeWord_entIdx (s : State) : (s.consumeWord).entIdx = s.entIdx + 1 := rfl
@[simp] theorem State.consumeWord_bit (s : State) : (s.consumeWord).bit = s.bit := rfl
@[simp] theorem State.consumeWord_cmdPort (s : State) : (s.consumeWord).cmdPort = s.cmdPort := rfl
@[simp] theorem State.consumeWord_rspPort (s : State) : (s.consumeWord).rspPort = s.rspPort := rfl
@[simp] theorem State.consumeWord_entPort (s : State) : (s.consumeWord).entPort = s.entPort.tail := rfl
@[simp] theorem State.consumeWord_entSilent (s : State) : (s.consumeWord).entSilent = s.entSilent := rfl
@[simp] theorem State.consumeWord_resetPending (s : State) : (s.consumeWord).resetPending = s.resetPending := rfl
@[simp] theorem State.consumeWord_freeIdx (s : State) : (s.consumeWord).freeIdx = s.freeIdx := rfl

@[simp] theorem State.takeBit_p (s : State) : (s.takeBit).p = s.p := rfl
@[simp] theorem State.takeBit_low (s : State) : (s.takeBit).low = s.low := rfl
@[simp] theorem State.takeBit_high (s : State) : (s.takeBit).high = s.high := rfl
@[simp] theorem State.takeBit_rsvBits (s : State) : (s.takeBit).rsvBits = s.rsvBits >>> 1 := rfl
@[simp] theorem State.takeBit_rsvCnt (s : State) : (s.takeBit).rsvCnt = s.rsvCnt - 1#7 := rfl
@[simp] theorem State.takeBit_wlow (s : State) : (s.takeBit).wlow = s.wlow := rfl
@[simp] theorem State.takeBit_whigh (s : State) : (s.takeBit).whigh = s.whigh := rfl
@[simp] theorem State.takeBit_pRecip (s : State) : (s.takeBit).pRecip = s.pRecip := rfl
@[simp] theorem State.takeBit_qRecip (s : State) : (s.takeBit).qRecip = s.qRecip := rfl
@[simp] theorem State.takeBit_result (s : State) : (s.takeBit).result = s.result := rfl
@[simp] theorem State.takeBit_nemit (s : State) : (s.takeBit).nemit = s.nemit := rfl
@[simp] theorem State.takeBit_valid (s : State) : (s.takeBit).valid = s.valid := rfl
@[simp] theorem State.takeBit_phase (s : State) : (s.takeBit).phase = s.phase := rfl
@[simp] theorem State.takeBit_op (s : State) : (s.takeBit).op = s.op := rfl
@[simp] theorem State.takeBit_entIdx (s : State) : (s.takeBit).entIdx = s.entIdx := rfl
@[simp] theorem State.takeBit_bit (s : State) : (s.takeBit).bit = s.rsvBits.getLsbD 0 := rfl
@[simp] theorem State.takeBit_cmdPort (s : State) : (s.takeBit).cmdPort = s.cmdPort := rfl
@[simp] theorem State.takeBit_rspPort (s : State) : (s.takeBit).rspPort = s.rspPort := rfl
@[simp] theorem State.takeBit_entPort (s : State) : (s.takeBit).entPort = s.entPort := rfl
@[simp] theorem State.takeBit_entSilent (s : State) : (s.takeBit).entSilent = s.entSilent := rfl
@[simp] theorem State.takeBit_resetPending (s : State) : (s.takeBit).resetPending = s.resetPending := rfl
@[simp] theorem State.takeBit_freeIdx (s : State) : (s.takeBit).freeIdx = s.freeIdx := rfl

@[simp] theorem State.resetEvent_entIdx (s : State) : s.resetEvent.entIdx = s.entIdx := rfl
@[simp] theorem State.resetEvent_bit (s : State) : s.resetEvent.bit = s.bit := rfl
@[simp] theorem State.resetEvent_cmdPort (s : State) : s.resetEvent.cmdPort = s.cmdPort := rfl
@[simp] theorem State.resetEvent_rspPort (s : State) : s.resetEvent.rspPort = s.rspPort := rfl
@[simp] theorem State.resetEvent_entPort (s : State) : s.resetEvent.entPort = s.entPort := rfl
@[simp] theorem State.resetEvent_entSilent (s : State) : s.resetEvent.entSilent = s.entSilent := rfl
@[simp] theorem State.resetEvent_valid (s : State) : s.resetEvent.valid = false := rfl
@[simp] theorem State.resetEvent_phase (s : State) : s.resetEvent.phase = .idle := rfl
@[simp] theorem State.resetEvent_resetPending (s : State) : s.resetEvent.resetPending = false := rfl
@[simp] theorem State.resetEvent_freeIdx (s : State) : s.resetEvent.freeIdx = s.freeIdx + 1 := rfl

end Sys2Proof.Machine
end

