-- ==== Sys2Proof/Laws/Ops.lean ====
section
/-! SUPPORT. One lemma for each shared operation: everything it can do. Proofs about the meanings cite these and do not
unfold the operations. -/

namespace Sys2Proof.Machine

/-- `REFILL` with an answering source: the upcoming word is loaded and consumed. -/
theorem State.refillReservoir_answering {s : State} (h : s.entSilent = false) :
    s.refillReservoir = .ok { s with
      rsvBits := s.upcomingWord 0, rsvCnt := 64#7, entPort := s.entPort.tail, entIdx := s.entIdx + 1 } := by
  simp [State.refillReservoir, State.consumeWord, Config.entBits, h]

/-- `REFILL` with a silent source stops. -/
theorem State.refillReservoir_silent {s : State} (h : s.entSilent = true) :
    s.refillReservoir = .error .entropySourceSilent := by
  simp [State.refillReservoir, h]

/-- `NEXT_BIT` with bits buffered is the take alone. -/
theorem State.takeFreshBit_buffered {s : State} (h : s.rsvCnt ≠ 0#7) :
    s.takeFreshBit = .ok s.takeBit := by
  simp [State.takeFreshBit, emptyFlag, h]

/-- `NEXT_BIT` on an empty reservoir refills and then takes. -/
theorem State.takeFreshBit_empty {s : State} (h : s.rsvCnt = 0#7) (ha : s.entSilent = false) :
    s.takeFreshBit = .ok { s with
      bit := (s.upcomingWord 0).getLsbD 0, rsvBits := s.upcomingWord 0 >>> 1, rsvCnt := 63#7,
      entPort := s.entPort.tail, entIdx := s.entIdx + 1 } := by
  simp [State.takeFreshBit, emptyFlag, h, State.refillReservoir_answering ha, State.takeBit]

/-- `NEXT_BIT` on an empty reservoir stops when the source is silent. -/
theorem State.takeFreshBit_silent {s : State} (h : s.rsvCnt = 0#7) (ha : s.entSilent = true) :
    s.takeFreshBit = .error .entropySourceSilent := by
  simp [State.takeFreshBit, emptyFlag, h, State.refillReservoir_silent ha]

/-- All that `NEXT_BIT` can do. -/
theorem State.takeFreshBit_cases (s : State) :
    (s.rsvCnt ≠ 0#7 ∧ s.takeFreshBit = .ok s.takeBit) ∨
    (s.rsvCnt = 0#7 ∧ s.entSilent = false ∧ s.takeFreshBit = .ok { s with
      bit := (s.upcomingWord 0).getLsbD 0, rsvBits := s.upcomingWord 0 >>> 1, rsvCnt := 63#7,
      entPort := s.entPort.tail, entIdx := s.entIdx + 1 }) ∨
    (s.rsvCnt = 0#7 ∧ s.entSilent = true ∧ s.takeFreshBit = .error .entropySourceSilent) := by
  by_cases h : s.rsvCnt = 0#7
  · by_cases ha : s.entSilent = true
    · exact .inr (.inr ⟨h, ha, State.takeFreshBit_silent h ha⟩)
    · exact .inr (.inl ⟨h, by simpa using ha, State.takeFreshBit_empty h (by simpa using ha)⟩)
  · exact .inl ⟨h, State.takeFreshBit_buffered h⟩

/-- What a `NEXT_BIT` that completes leaves alone, and that exactly one bit is spent: the count of bits drawn less bits
buffered goes up by one. -/
theorem State.takeFreshBit_ok {s t : State} (h : s.takeFreshBit = .ok t) :
    t = { s with bit := t.bit, rsvBits := t.rsvBits, rsvCnt := t.rsvCnt, entPort := t.entPort, entIdx := t.entIdx } ∧
    64 * t.entIdx + s.rsvCnt.toNat = 64 * s.entIdx + t.rsvCnt.toNat + 1 := by
  rcases s.takeFreshBit_cases with ⟨hc, hs⟩ | ⟨hc, -, hs⟩ | ⟨-, -, hs⟩
  · rw [hs] at h; cases h
    refine ⟨rfl, ?_⟩
    have : s.rsvCnt.toNat ≠ 0 := fun e => hc (BitVec.eq_of_toNat_eq e)
    have hlt := s.rsvCnt.isLt
    simp only [State.takeBit_entIdx, State.takeBit_rsvCnt, BitVec.toNat_sub, BitVec.toNat_ofNat]
    omega
  · rw [hs] at h; cases h
    refine ⟨rfl, ?_⟩
    simp only [hc, BitVec.toNat_ofNat]
    omega
  · rw [hs] at h; cases h

end Sys2Proof.Machine
end

