-- ==== Sys2Proof/Laws/PerInstr.lean ====
section
/-! SUPPORT. The per-instruction family RowEncoding: an instruction is well-formed, its word fits its format, and the
opcode table's row of that instruction admits the word. -/

namespace Sys2Proof.Laws.RowEncoding

/-- The word the encoder gives for `i` fits its format and lies in `i`'s row of the opcode table. -/
def Statement (i : Instr) : Prop :=
  i.wf = true ∧ (encode i).wf = true ∧ (tableRow i).admits (encode i) = true

theorem create (arg : Word) : Statement (.create arg) := by
  have h : (commandWord 0#1 arg).toNat = arg.toNat := by
    rw [commandWord, BitVec.toNat_append]
    simp
  have hlt := arg.isLt
  refine ⟨rfl, ?_, ?_⟩
  · simp only [encode, Encoded.wf, Format.width, h, decide_eq_true_eq]
    omega
  · have hm : arg.toNat &&& 2 ^ 64 = 0 := by
      rw [Nat.and_two_pow, Nat.testBit_lt_two_pow hlt]; rfl
    simp only [tableRow, encode, TableRow.admits, h]
    simpa using hm

theorem next : Statement .next := by unfold Statement; decide
theorem emit1 : Statement .emit1 := by unfold Statement; decide
theorem emit0 : Statement .emit0 := by unfold Statement; decide
theorem narrow : Statement .narrow := by unfold Statement; decide
theorem wordDone : Statement .wordDone := by unfold Statement; decide
theorem nextBit : Statement .nextBit := by unfold Statement; decide
theorem refill : Statement .refill := by unfold Statement; decide

end Sys2Proof.Laws.RowEncoding
end

