-- ==== Sys2Proof/Laws/Safety.lean ====
section
/-! SUPPORT. How to show that a pattern is the nearest one, by the kind of the pattern: no proof unfolds the match. -/

namespace Sys2Proof.Safety

open Sys2Proof.Machine

/-- A finite pattern is the rounded result when the exact number is below the overflow threshold and no finite pattern is
nearer, nor an equally near one of another value unless the pattern is even. -/
theorem roundedToNearest_of_fin {neg : Bool} {num : Int} {den units : Nat} {r : Word} (hr : valueOf r = .fin neg units)
    (hlt : 2 * num.natAbs < twiceOverflow * den)
    (hnear : ∀ c v, finiteUnits c = some v →
      (signedUnits neg units * den - num).natAbs ≤ (v * den - num).natAbs ∧
      ((signedUnits neg units * den - num).natAbs = (v * den - num).natAbs → v ≠ signedUnits neg units →
        r.getLsbD 0 = false)) :
    RoundedToNearest r num den := by
  unfold RoundedToNearest
  rw [hr]
  exact ⟨hlt, hnear⟩

/-- An infinity is the rounded result when the exact number has its sign and reaches the overflow threshold. -/
theorem roundedToNearest_of_inf {neg : Bool} {num : Int} {den : Nat} {r : Word} (hr : valueOf r = .inf neg)
    (hle : twiceOverflow * den ≤ 2 * num.natAbs) (hneg : neg = decide (num < 0)) : RoundedToNearest r num den := by
  unfold RoundedToNearest
  rw [hr]
  exact ⟨hle, hneg⟩

/-- The overflow threshold under another spelling of its exponent, so that no proof evaluates the power. -/
theorem twiceOverflow_eq {e : Nat} (he : e = 2045) : twiceOverflow = (2 ^ 54 - 1) * 2 ^ e := by
  subst he
  unfold twiceOverflow
  rfl

/-- A finite pattern's value is the magnitude of its 63 low bits with its sign. -/
theorem finiteUnits_cases {c : Word} {v : Int} (h : finiteUnits c = some v) :
    ∃ n, v = (magOf n : Int) ∨ v = -(magOf n : Int) := by
  unfold finiteUnits at h
  rcases Nat.lt_trichotomy (c.toNat % 2 ^ 63) infMagnitude with q | q | q
  · rw [valueOf_fin q] at h
    simp only [signedUnits, Option.some.injEq] at h
    refine ⟨c.toNat % 2 ^ 63, ?_⟩
    split at h
    · exact .inr h.symm
    · exact .inl h.symm
  · rw [valueOf_inf q] at h; cases h
  · rw [valueOf_nan q] at h; cases h

end Sys2Proof.Safety
end

