-- ==== Sys2Proof/Laws/Step.lean ====
section
/-! SUPPORT. What one step can do, said once: the four kinds of step, and one inversion lemma for each meaning. -/

namespace Sys2Proof.Machine

/-- The four kinds of step. -/
theorem step_cases (s : State) :
    (s.resetPending = true ∧ step s = .next s.resetEvent) ∨
    (s.resetPending = false ∧ s.phase = .idle ∧ s.cmdPort = [] ∧ step s = .next s) ∨
    (∃ w ws, s.resetPending = false ∧ s.phase = .idle ∧ s.cmdPort = w :: ws ∧ step s = exec (decodeCommand w) s) ∨
    (s.resetPending = false ∧ s.phase = .run ∧ step s = exec (decodeSel (selector s)) s) := by
  cases hr : s.resetPending with
  | true => exact .inl ⟨rfl, by simp [step, hr]⟩
  | false =>
    refine .inr ?_
    cases hp : s.phase with
    | run => exact .inr (.inr ⟨rfl, rfl, by simp [step, hr, State.selected, hp]⟩)
    | idle =>
      cases hc : s.cmdPort with
      | nil => exact .inl ⟨rfl, rfl, rfl, by simp [step, hr, State.selected, hp, hc]⟩
      | cons w ws => exact .inr (.inl ⟨w, ws, rfl, rfl, rfl, by simp [step, hr, State.selected, hp, hc]⟩)

/-- A command decodes to one of the two host commands. -/
theorem decodeCommand_cases (w : CmdWord) : (∃ a, decodeCommand w = .create a) ∨ decodeCommand w = .next := by
  unfold decodeCommand
  split
  · exact .inr rfl
  · exact .inl ⟨_, rfl⟩

/-- A selector decodes to one of the four loop micro-operations. -/
theorem decodeSel_cases (w : BitVec 3) :
    decodeSel w = .wordDone ∨ decodeSel w = .emit1 ∨ decodeSel w = .emit0 ∨ decodeSel w = .narrow := by
  unfold decodeSel
  split
  · exact .inl rfl
  · split
    · exact .inr (.inl rfl)
    · split
      · exact .inr (.inr (.inl rfl))
      · exact .inr (.inr (.inr rfl))

/-- The three conditions are the three bits of the selector. -/
@[simp] theorem selector_done (s : State) : (selector s)[2] = doneFlag s := by
  unfold selector
  cases doneFlag s <;> cases ltFlag s <;> cases gtFlag s <;> rfl

@[simp] theorem selector_lt (s : State) : (selector s)[1] = ltFlag s := by
  unfold selector
  cases doneFlag s <;> cases ltFlag s <;> cases gtFlag s <;> rfl

@[simp] theorem selector_gt (s : State) : (selector s)[0] = gtFlag s := by
  unfold selector
  cases doneFlag s <;> cases ltFlag s <;> cases gtFlag s <;> rfl

/-- All that `CREATE` can do when it answers a next state. -/
theorem execCreate_cases {arg : Word} {s t : State} (h : execCreate arg s = .next t) :
    (s.phase = .run ∧ t = s) ∨
    (s.phase = .idle ∧ invalidProbability arg = true ∧ t = (s.accept .create).raiseInvalidProbability) ∨
    (s.phase = .idle ∧ invalidProbability arg = false ∧
      t = ((s.accept .create).construct arg).respond stOk 0#32) := by
  unfold execCreate at h
  cases hp : s.phase with
  | run => rw [hp] at h; cases h; exact .inl ⟨rfl, rfl⟩
  | idle =>
    rw [hp] at h
    cases hi : invalidProbability arg with
    | true => simp only [hi, if_true] at h; cases h; exact .inr (.inl ⟨rfl, rfl, rfl⟩)
    | false => simp only [hi] at h; cases h; exact .inr (.inr ⟨rfl, rfl, rfl⟩)

/-- All that `NEXT` can do when it answers a next state. -/
theorem execNext_cases {s t : State} (h : execNext s = .next t) :
    (s.phase = .run ∧ t = s) ∨
    (s.phase = .idle ∧ s.valid = false ∧ t = (s.accept .next).raiseNotConstructed) ∨
    (s.phase = .idle ∧ s.valid = true ∧ feq s.p fZero = true ∧ t = (s.accept .next).respond stOk 0#32) ∨
    (s.phase = .idle ∧ s.valid = true ∧ feq s.p fZero = false ∧ feq s.p fOne = true ∧
      t = (s.accept .next).respond stOk 0xFFFFFFFF#32) ∨
    (s.phase = .idle ∧ s.valid = true ∧ feq s.p fZero = false ∧ feq s.p fOne = false ∧
      t = (s.accept .next).startWord) := by
  unfold execNext at h
  cases hp : s.phase with
  | run => rw [hp] at h; cases h; exact .inl ⟨rfl, rfl⟩
  | idle =>
    rw [hp] at h
    cases hv : s.valid with
    | false => simp only [hv, Bool.not_false, if_true] at h; cases h; exact .inr (.inl ⟨rfl, rfl, rfl⟩)
    | true =>
      cases h0 : feq s.p fZero with
      | true =>
        simp only [hv, h0, Bool.not_true, if_true] at h; cases h
        exact .inr (.inr (.inl ⟨rfl, rfl, rfl, rfl⟩))
      | false =>
        cases h1 : feq s.p fOne with
        | true =>
          simp only [hv, h0, h1, Bool.not_true, if_true] at h; cases h
          exact .inr (.inr (.inr (.inl ⟨rfl, rfl, rfl, rfl, rfl⟩)))
        | false =>
          simp only [hv, h0, h1, Bool.not_true] at h; cases h
          exact .inr (.inr (.inr (.inr ⟨rfl, rfl, rfl, rfl, rfl⟩)))

/-- All that `NARROW` can do when it answers a next state. -/
theorem execNarrow_cases {s t : State} (h : execNarrow s = .next t) :
    ∃ u, s.takeFreshBit = .ok u ∧ t = u.halve := by
  unfold execNarrow at h
  cases hb : s.takeFreshBit with
  | ok u => rw [hb] at h; cases h; exact ⟨u, rfl, rfl⟩
  | error f => rw [hb] at h; cases h

/-- The runs of any machine, by its first step. -/
theorem coreRun_succ (M : Host.Core) (k : Nat) (s : M.State) :
    (∀ t, M.step s = .next t → M.run (k + 1) s = M.run k t) ∧
    (∀ f, M.step s = .fault f → M.run (k + 1) s = .fault f) ∧
    (∀ r, M.step s = .refused r → M.run (k + 1) s = .refused r) := by
  refine ⟨?_, ?_, ?_⟩ <;> intro x h <;> simp [Host.Core.run, h]

/-- A run of no steps. -/
theorem run_zero (s : State) : core.run 0 s = .next s := rfl

/-- A run whose first step answers a next state goes on from there. -/
theorem run_succ {s t : State} (k : Nat) (h : step s = .next t) : core.run (k + 1) s = core.run k t :=
  (coreRun_succ core k s).1 t h

/-- A run whose first step stops with a fault stops with it. -/
theorem run_fault {s : State} {f : Fault} (k : Nat) (h : step s = .fault f) : core.run (k + 1) s = .fault f :=
  (coreRun_succ core k s).2.1 f h

/-- A run whose first step is refused is refused. -/
theorem run_refused {s : State} {r : Refusal} (k : Nat) (h : step s = .refused r) :
    core.run (k + 1) s = .refused r :=
  (coreRun_succ core k s).2.2 r h

/-- A longer run that answers a next state took a first step to a next state. -/
theorem run_succ_next {s u : State} {k : Nat} (h : core.run (k + 1) s = .next u) :
    ∃ t, step s = .next t ∧ core.run k t = .next u := by
  cases hs : step s with
  | next t => exact ⟨t, rfl, by rw [← run_succ k hs]; exact h⟩
  | fault f => rw [run_fault k hs] at h; cases h
  | refused r => rw [run_refused k hs] at h; cases h

/-- A run that goes on for one more step. -/
theorem run_snoc {k : Nat} : ∀ {s t : State}, core.run k s = .next t → core.run (k + 1) s = step t := by
  induction k with
  | zero =>
    intro s t h
    cases h
    cases hs : step s with
    | next u => exact run_succ 0 hs
    | fault f => exact run_fault 0 hs
    | refused r => exact run_refused 0 hs
  | succ k ih =>
    intro s t h
    obtain ⟨u, hu, hr⟩ := run_succ_next h
    rw [run_succ (k + 1) hu]
    exact ih hr

end Sys2Proof.Machine
end

