-- ==== Sys2Proof/Tests/Slice0.lean ====
section
/-! SUPPORT. Our own tests: the well-formedness smoke test, words written out from the encodings, one-step tests whose
expected values are the vectors of 95_test_vectors.md, and for every statement that has hypotheses a witness that meets
all of them together. -/

namespace Sys2Proof.Tests

open Sys2Proof Sys2Proof.Machine Sys2Proof.Safety

/-! ### States the tests start from -/

/-- An idle block with a generator of 0.75, as `CREATE` leaves it, and one known entropy word (program P1). -/
def ready : State :=
  { State.reset with valid := true, p := 0x3FE8000000000000#64, high := fOne, entPort := [0x0123456789ABCDEF#64] }

/-- The same block in the middle of a word, its interval `[WLOW, WHIGH]` given (rows of the P1 trace). -/
def running (wlow whigh : Word) : State :=
  { ready with
    phase := .run, op := .next, wlow := wlow, whigh := whigh,
    pRecip := 0x3FF5555555555555#64, qRecip := 0x4010000000000000#64 }

/-- A block hung as V-HANG1 from step 56 on. -/
def hung : State :=
  { running 0x3FE0000000000000#64 0x3FE0000000000000#64 with
    p := 0x3FE0000000000000#64, pRecip := 0x4000000000000000#64, qRecip := 0x4000000000000000#64,
    nemit := 1#6, rsvCnt := 9#7, entIdx := 1 }

/-- What a test looks at after one instruction. -/
def observe {α : Type} (r : Result) (f : State → α) : Option α :=
  match r with
  | .next t => some (f t)
  | .fault _ => none
  | .refused _ => none

/-- An instruction or a step that answers a next state has one. -/
theorem exists_next_of_observe (r : Result) (h : observe r (fun _ => ()) = some ()) : ∃ t, r = .next t := by
  cases r with
  | next t => exact ⟨t, rfl⟩
  | fault f => cases h
  | refused f => cases h

/-! ### Well-formedness: ill-formed raw words, refused by name (R52) -/

theorem test_wf_command_too_wide : decode { format := .c, value := 2 ^ 65 } = .error (.wordTooWide .c) := by decide
theorem test_wf_selector_too_wide : decode { format := .sel, value := 8 } = .error (.wordTooWide .sel) := by decide
theorem test_wf_empty_too_wide : decode { format := .empty, value := 2 } = .error (.wordTooWide .empty) := by decide
theorem test_wf_widest_words : Encoded.wf { format := .c, value := 2 ^ 65 - 1 } = true ∧
    Encoded.wf { format := .sel, value := 7 } = true ∧ Encoded.wf { format := .empty, value := 1 } = true := by decide

/-! ### Decoding: each constructor's word, written out from R43, R49, R50 and the programs of 95_test_vectors.md -/

theorem test_decode_create : decode { format := .c, value := 0x03FE8000000000000 } =
    .ok (.create 0x3FE8000000000000#64) := by decide
theorem test_decode_create_all_ones : decode { format := .c, value := 0x0FFFFFFFFFFFFFFFF } =
    .ok (.create 0xFFFFFFFFFFFFFFFF#64) := by decide
theorem test_decode_next : decode { format := .c, value := 0x10000000000000000 } = .ok .next := by decide
theorem test_decode_next_ignores_low_bits : decode { format := .c, value := 0x1DEADBEEFDEADBEEF } = .ok .next := by decide
theorem test_decode_emit1 : decode { format := .sel, value := 0b010 } = .ok .emit1 := by decide
theorem test_decode_emit1_both : decode { format := .sel, value := 0b011 } = .ok .emit1 := by decide
theorem test_decode_emit0 : decode { format := .sel, value := 0b001 } = .ok .emit0 := by decide
theorem test_decode_narrow : decode { format := .sel, value := 0b000 } = .ok .narrow := by decide
theorem test_decode_wordDone : ∀ x < 4, decode { format := .sel, value := 0b100 + x } = .ok .wordDone := by decide
theorem test_decode_nextBit : decode { format := .empty, value := 0b0 } = .ok .nextBit := by decide
theorem test_decode_refill : decode { format := .empty, value := 0b1 } = .ok .refill := by decide

theorem test_reservoirPlan : reservoirPlan 1#1 = [.refill, .nextBit] ∧ reservoirPlan 0#1 = [.nextBit] := by decide

theorem test_table_words : decodeTableWord 65 0x03FE8000000000000 = some (.create 0x3FE8000000000000#64) ∧
    decodeTableWord 72 0x10000000000000000 = some .next ∧ decodeTableWord 3 0b010 = some .emit1 ∧
    decodeTableWord 8 0b001 = some .emit0 ∧ decodeTableWord 8 0b100 = some .wordDone ∧
    decodeTableWord 8 0b000 = some .narrow ∧ decodeTableWord 1 0b1 = some .refill ∧
    decodeTableWord 1 0b0 = some .nextBit := by decide

/-! ### The very next step runs the table word -/

theorem test_fetch_command : (State.reset.withFetchWord 72 0x10000000000000000).selected = some .next ∧
    (State.reset.withFetchWord 72 0x03FE8000000000000).selected = some (.create 0x3FE8000000000000#64) := by decide
theorem test_fetch_selector : ∀ w < 8, some (decodeSel (BitVec.ofNat 3 w)) =
    (State.reset.withFetchWord 8 w).selected := by decide +kernel
theorem test_fetch_empty : (State.reset.withFetchWord 1 1).selected = some .narrow ∧
    emptyFlag (State.reset.withFetchWord 1 1) = true ∧ emptyFlag (State.reset.withFetchWord 1 0) = false := by
  decide +kernel

/-! ### One step of each instruction -/

/-- V-C4. -/
theorem test_create_ok : observe (exec (.create 0x3FE8000000000000#64) { hung with phase := .idle })
    (fun t => (t.p, t.high, t.rsvCnt, t.valid, t.rspPort)) =
    some (0x3FE8000000000000#64, 0x3FF0000000000000#64, 0#7, true, [0x000000000#34]) := by decide +kernel
/-- V-C20. -/
theorem test_create_invalid : observe (exec (.create 0x4000000000000000#64) { hung with phase := .idle })
    (fun t => (t.p, t.rsvCnt, t.valid, t.rspPort)) =
    some (0x3FE0000000000000#64, 9#7, false, [0x100000000#34]) := by decide +kernel
/-- V-S1 and R62. -/
theorem test_next_starts : observe (exec .next ready)
    (fun t => (t.whigh, t.pRecip, t.qRecip, t.phase, t.rspPort)) =
    some (0x3FF0000000000000#64, 0x3FF5555555555555#64, 0x4010000000000000#64, .run, []) := by decide +kernel
/-- V-D2. -/
theorem test_next_one : observe (exec .next { ready with p := fOne }) (fun t => (t.rspPort, t.phase, t.entIdx)) =
    some ([0x0FFFFFFFF#34], .idle, 0) := by decide +kernel
/-- V-E1-2. -/
theorem test_emit1 : observe (exec .emit1 { running 0x3FD0000000000000#64 0x3FE0000000000000#64 with result := 0b101#32 })
    (fun t => (t.wlow, t.whigh, t.result, t.nemit)) =
    some (0x3FD5555555555555#64, 0x3FE5555555555555#64, 0b1011#32, 1#6) := by decide +kernel
/-- V-E1-9. -/
theorem test_emit1_infinite : observe
    (exec .emit1 { running 0x0002000000000000#64 0x0003000000000000#64 with pRecip := 0x7FF0000000000000#64 })
    (fun t => (t.wlow, t.whigh)) = some (0x7FF0000000000000#64, 0x7FF0000000000000#64) := by decide +kernel
/-- V-E0-2. -/
theorem test_emit0 : observe (exec .emit0 { running 0x3FEA000000000000#64 0x3FEC000000000000#64 with result := 0b101#32 })
    (fun t => (t.wlow, t.whigh, t.result, t.nemit)) =
    some (0x3FD0000000000000#64, 0x3FE0000000000000#64, 0b1010#32, 1#6) := by decide +kernel
/-- V-E0-6. -/
theorem test_emit0_rounds : observe
    (exec .emit0 { running 0x3FEFFFFFFFFFFFFE#64 0x3FEFFFFFFFFFFFFE#64 with
      p := 0x3FD3333333333333#64, qRecip := 0x3FF6DB6DB6DB6DB7#64 })
    (fun t => (t.wlow, t.whigh)) = some (0x3FEFFFFFFFFFFFFD#64, 0x3FEFFFFFFFFFFFFD#64) := by decide +kernel
/-- V-N9 with a buffered bit 1. -/
theorem test_narrow_tie : observe
    (exec .narrow { running 0x3FE0000000000001#64 0x3FE0000000000002#64 with rsvBits := 1#64, rsvCnt := 1#7 })
    (fun t => (t.wlow, t.whigh, t.rsvBits, t.rsvCnt, t.entIdx)) =
    some (0x3FE0000000000002#64, 0x3FE0000000000002#64, 0#64, 0#7, 0) := by decide +kernel
/-- V-N2 with V-B5: the refill inside `NARROW`, bit 0. -/
theorem test_narrow_refills : observe
    (exec .narrow { running 0#64 0x3FF0000000000000#64 with entPort := [0xFEDCBA9876543210#64] })
    (fun t => (t.wlow, t.whigh, t.rsvBits, t.rsvCnt, t.entIdx)) =
    some (0#64, 0x3FE0000000000000#64, 0x7F6E5D4C3B2A1908#64, 63#7, 1) := by decide +kernel
/-- V-W1. -/
theorem test_wordDone : observe
    (exec .wordDone { running 0x3FE33F3C7DC5CEAC#64 0x3FEC799862474AAA#64 with result := 0x36FFFEFF#32, nemit := 32#6 })
    (fun t => (t.low, t.high, t.rspPort, t.phase, t.nemit)) =
    some (0x3FE33F3C7DC5CEAC#64, 0x3FEC799862474AAA#64, [0x036FFFEFF#34], .idle, 32#6) := by decide +kernel
/-- V-B3. -/
theorem test_nextBit_last : observe (exec .nextBit { ready with rsvBits := 1#64, rsvCnt := 1#7 })
    (fun t => (t.bit, t.rsvBits, t.rsvCnt, t.entIdx)) = some (true, 0#64, 0#7, 0) := by decide
/-- V-B6. -/
theorem test_nextBit_refills : observe (exec .nextBit { ready with entPort := [0x8000000000000000#64] })
    (fun t => (t.bit, t.rsvBits, t.rsvCnt, t.entIdx)) = some (false, 0x4000000000000000#64, 63#7, 1) := by decide
/-- V-B7. -/
theorem test_refill : observe (exec .refill { ready with entPort := [0x8000000000000000#64] })
    (fun t => (t.rsvBits, t.rsvCnt, t.entIdx)) = some (0x8000000000000000#64, 64#7, 1) := by decide
/-- V-SEL4, V-SEL5, V-SEL7, V-SEL10. -/
theorem test_selection : (running 0x3FE0000000000000#64 0x3FE8000000000000#64).selected = some .narrow ∧
    (running 0x3FE8000000000000#64 0x3FF0000000000000#64).selected = some .narrow ∧
    { running 0#64 0x3FE0000000000000#64 with nemit := 32#6 }.selected = some .wordDone ∧
    (running 0x3FEC000000000000#64 0x3FE0000000000000#64).selected = some .emit1 := by decide +kernel
/-- V-SEL9, for every NaN. -/
theorem test_selection_nan : (running 0x7FF0000000000001#64 0x7FF0000000000000#64).selected = some .narrow ∧
    (running 0xFFF8000000000000#64 0x7FF0000000000000#64).selected = some .narrow := by decide +kernel

/-! ### Numbers (V-C1 to V-C18, V-S4, V-S5, V-S8, V-S11, V-S12, V-N12) -/

theorem test_valid_operands : [0x0000000000000000#64, 0x3FF0000000000000#64, 0x3FE8000000000000#64,
    0x0000000000000001#64, 0x3FEFFFFFFFFFFFFF#64].any invalidProbability = false := by decide +kernel
theorem test_invalid_operands : [0x8000000000000000#64, 0x3FF0000000000001#64, 0x7FF0000000000000#64,
    0xBFE0000000000000#64, 0x8000000000000001#64, 0xFFF0000000000000#64, 0x7FF8000000000000#64, 0x7FF0000000000001#64,
    0xFFF8000000000000#64].all invalidProbability = true := by decide +kernel
theorem test_reciprocals : fdiv fOne 0x3FB999999999999A#64 = 0x4024000000000000#64 ∧
    fsub fOne 0x3FECCCCCCCCCCCCD#64 = 0x3FB9999999999998#64 ∧ fdiv fOne 0x3FB9999999999998#64 = 0x4024000000000001#64 ∧
    fdiv fOne 0x3FEFFFFFFFFFFFFF#64 = 0x3FF0000000000001#64 ∧ fdiv fOne 0x0004000000000001#64 = 0x7FEFFFFFFFFFFFF8#64 ∧
    fdiv fOne 0x0004000000000000#64 = 0x7FF0000000000000#64 := by decide +kernel
theorem test_subnormal_tie : halfSum 0#64 0x0000000000000003#64 = 0x0000000000000002#64 ∧
    halfSum 0#64 0x0000000000000001#64 = 0#64 := by decide +kernel

/-! ### Witnesses: for each statement with hypotheses, a state and operands that meet all of them together -/

/-- The least, the greatest and a middle valid operand. -/
theorem witness_CreateConstructsGenerator : ready.phase = .idle ∧
    ((0x0000000000000000#64).getLsbD 63 = false ∧ fgt 0x0000000000000000#64 0x3FF0000000000000#64 = false ∧
      isNaN 0x0000000000000000#64 = false) ∧
    ((0x3FE8000000000000#64).getLsbD 63 = false ∧ fgt 0x3FE8000000000000#64 0x3FF0000000000000#64 = false ∧
      isNaN 0x3FE8000000000000#64 = false) ∧
    ((0x3FF0000000000000#64).getLsbD 63 = false ∧ fgt 0x3FF0000000000000#64 0x3FF0000000000000#64 = false ∧
      isNaN 0x3FF0000000000000#64 = false) := by decide +kernel

/-- Each clause at its boundary: `-0.0`, the least value above 1.0, the least NaN pattern. -/
theorem witness_CreateRefusesInvalidProbability : ready.phase = .idle ∧
    (0x8000000000000000#64).getLsbD 63 = true ∧ fgt 0x3FF0000000000001#64 0x3FF0000000000000#64 = true ∧
    isNaN 0x7FF0000000000001#64 = true := by decide +kernel

theorem witness_CommandAcceptance : (ready.offer 0x10000000000000000#65).resetPending = false ∧
    (ready.offer 0x10000000000000000#65).phase = .idle ∧
    (ready.offer 0x10000000000000000#65).cmdPort = [0x10000000000000000#65] ∧
    hung.phase = .run ∧ hung.resetPending = false ∧ ∃ t, step hung = .next t :=
  ⟨by decide, by decide, by decide, by decide, by decide, exists_next_of_observe _ (by decide +kernel)⟩

theorem witness_NextRefusesWithoutGenerator : State.reset.phase = .idle ∧ State.reset.valid = false := by decide

/-- Both clauses, the first for either zero. -/
theorem witness_NextDegenerateWords : ready.phase = .idle ∧ ready.valid = true ∧
    feq { ready with p := 0#64 }.p 0x0000000000000000#64 = true ∧
    feq { ready with p := 0x8000000000000000#64 }.p 0x0000000000000000#64 = true ∧
    feq { ready with p := fOne }.p 0x3FF0000000000000#64 = true := by decide +kernel

/-- The least and the greatest non-degenerate `P`. -/
theorem witness_NextStartsWord : ready.phase = .idle ∧ ready.valid = true ∧
    (feq { ready with p := 1#64 }.p 0x0000000000000000#64 = false ∧
      feq { ready with p := 1#64 }.p 0x3FF0000000000000#64 = false) ∧
    (feq { ready with p := 0x3FEFFFFFFFFFFFFF#64 }.p 0x0000000000000000#64 = false ∧
      feq { ready with p := 0x3FEFFFFFFFFFFFFF#64 }.p 0x3FF0000000000000#64 = false) := by decide +kernel

theorem witness_ReciprocalRange : openProbability 0x0000000000000001#64 ∧ openProbability 0x0004000000000000#64 ∧
    openProbability 0x0004000000000001#64 ∧ openProbability 0x3FEFFFFFFFFFFFFF#64 :=
  ⟨⟨by decide, by decide⟩, ⟨by decide, by decide⟩, ⟨by decide, by decide⟩, ⟨by decide, by decide⟩⟩

/-- Each of the four branches. -/
theorem witness_RunStepFollowsComparisons :
    (∀ n ∈ [0#6, 32#6], { hung with nemit := n }.resetPending = false ∧ { hung with nemit := n }.phase = .run) ∧
    flt 0x3FE0000000000000#64 0x3FE8000000000000#64 = true ∧ fgt 0x3FEC000000000000#64 0x3FE8000000000000#64 = true ∧
    flt hung.whigh hung.p = false ∧ fgt hung.wlow hung.p = false := by decide +kernel

/-- The second clause of `Emit1EmitsOne`, `Emit0EmitsZero`, `NarrowHalvesInterval` and `WordDonePersistsAndResponds`. -/
theorem witness_selected : hung.phase = .run ∧
    (running 0#64 0x3FE0000000000000#64).selected = some .emit1 ∧
    (running 0x3FEC000000000000#64 0x3FF0000000000000#64).selected = some .emit0 ∧ hung.selected = some .narrow ∧
    { hung with nemit := 32#6 }.selected = some .wordDone := by decide +kernel

/-- Either hypothesis of `NarrowHalvesInterval`: a buffered bit before a silent source; an answering source. -/
theorem witness_NarrowHalvesInterval : { hung with entSilent := true }.rsvCnt ≠ 0#7 ∧
    { hung with rsvCnt := 0#7 }.entSilent = false := by decide

theorem witness_Emit1KeepsIntervalBelowOne : openProbability 0x3FE8000000000000#64 ∧
    (0x3FE7FFFFFFFFFFFF#64).toNat ≤ 0x3FF0000000000000 ∧
    flt 0x3FE7FFFFFFFFFFFF#64 0x3FE8000000000000#64 = true ∧ isInf (fdiv fOne 0x3FE8000000000000#64) = false :=
  ⟨⟨by decide, by decide⟩, by decide, by decide +kernel, by decide +kernel⟩

theorem witness_Emit0EndpointMap : fgt 0x7FF0000000000000#64 0x3FE8000000000000#64 = true ∧
    fgt 0x3FE8000000000001#64 0x3FE8000000000000#64 = true ∧ openProbability 0x0000000000000001#64 ∧
    openProbability 0x3FEFFFFFFFFFFFFF#64 :=
  ⟨by decide +kernel, by decide +kernel, ⟨by decide, by decide⟩, ⟨by decide, by decide⟩⟩

theorem witness_OutputBitOrder : (List.replicate 32 true).length = 32 ∧ ready.result = 0#32 := by decide

/-- The program P1's second command, at the port of the block that accepted the first. -/
def offered : State := ready.offer 0x10000000000000000#65

theorem witness_WordEqualsBigStep : offered.phase = .idle ∧ offered.resetPending = false ∧ offered.valid = true ∧
    feq offered.p fZero = false ∧ feq offered.p fOne = false ∧ offered.cmdPort = [0x10000000000000000#65] ∧
    (0x10000000000000000#65).getLsbD 64 = true ∧ offered.entSilent = false := by decide +kernel

/-- Both cases of `WordEqualsBigStep`: after 55 iterations the loop has ended with the word of P1, after 54 it has not. -/
theorem witness_WordEqualsBigStep_cases :
    (wordLoop ready.p 0x3FF5555555555555#64 0x4010000000000000#64 55 (wordLoopStart ready)).map
      (fun v => (v.1.res, v.1.lo, v.1.hi, v.1.env.rsvBits, v.1.env.rsvCnt, v.2)) =
      some (0x36FFFEFF#32, 0x3FE33F3C7DC5CEAC#64, 0x3FEC799862474AAA#64, 0x00000002468ACF13#64, 41#7, 55) ∧
    (wordLoop ready.p 0x3FF5555555555555#64 0x4010000000000000#64 54 (wordLoopStart ready)).isNone = true := by
  decide +kernel

/-- The three forms of `NextBitTakesLowBit`: one buffered bit, none, and its worked examples. -/
theorem witness_NextBitTakesLowBit : { ready with rsvCnt := 1#7 }.rsvCnt ≠ 0#7 ∧ ready.rsvCnt = 0#7 ∧
    ready.entSilent = false ∧ ready.entPort = [0x0123456789ABCDEF#64] ∧
    { ready with rsvBits := 0x0000000000000005#64, rsvCnt := 3#7 }.rsvBits = 0x0000000000000005#64 := by decide

theorem witness_RefillLoadsWord : ready.entSilent = false ∧
    { ready with entPort := [0xFEDCBA9876543210#64] }.entPort = [0xFEDCBA9876543210#64] := by decide

theorem witness_ReservoirBitOrder : ready.rsvCnt = 0#7 ∧ ready.entSilent = false := by decide

/-- `EntropyAccounting`, `OneResponsePerCommand`: a `NARROW` step that draws, a `WORD_DONE` step and an accepting step. -/
theorem witness_EntropyAccounting : ∀ s ∈ [{ hung with rsvCnt := 0#7 }, { hung with nemit := 32#6 }, offered],
    s.resetPending = false ∧ ∃ t, step s = .next t := by
  intro s hs
  have hall : ∀ s ∈ [{ hung with rsvCnt := 0#7 }, { hung with nemit := 32#6 }, offered],
    s.resetPending = false ∧ observe (step s) (fun _ => ()) = some () := by decide +kernel
  exact ⟨(hall s hs).1, exists_next_of_observe _ (hall s hs).2⟩

theorem witness_OneResponsePerCommand : ∀ s ∈ [{ hung with rsvCnt := 0#7 }, { hung with nemit := 32#6 }, offered],
    s.resetPending = false ∧ ∃ t, step s = .next t := witness_EntropyAccounting

/-- The three clauses of `StepRunsSelectedInstruction`. -/
theorem witness_StepRunsSelectedInstruction : offered.resetPending = false ∧ offered.phase = .idle ∧
    offered.cmdPort = [0x10000000000000000#65] ∧
    decode { format := .c, value := (0x10000000000000000#65).toNat } = .ok .next ∧
    hung.resetPending = false ∧ hung.phase = .run ∧
    decode { format := .sel, value := (selector hung).toNat } = .ok .narrow ∧ ready.cmdPort = [] := by decide +kernel

theorem witness_ResetEventAbandonsEverything : hung.assertReset.resetPending = true ∧ hung.assertReset.phase = .run := by
  decide

/-- `Inv` holds mid-word, and such a state steps. -/
theorem witness_StepKeepsInv : ∃ s t : State, Inv s ∧ s.phase = .run ∧ step s = .next t := by
  obtain ⟨t, ht⟩ := exists_next_of_observe (step (running 0#64 0x3FF0000000000000#64)) (by decide +kernel)
  refine ⟨_, t, ⟨fun _ => ⟨by decide, by decide, by decide, ?_⟩, fun _ => ⟨rfl, rfl, ⟨by decide, by decide⟩, by decide,
    by decide +kernel, by decide +kernel, by decide⟩, fun r hr => ?_⟩, rfl, ht⟩
  · exact fun h => absurd ⟨by decide, by decide⟩ h
  · cases hr

/-- `RegisterWriters`: every instruction answers a next state somewhere. -/
theorem witness_RegisterWriters : ∀ i ∈ [Instr.create 0x3FE8000000000000#64, .next, .emit1, .emit0, .narrow, .wordDone,
    .nextBit, .refill], ∃ t, exec i ready = .next t := by
  intro i hi
  have hall : ∀ i ∈ [Instr.create 0x3FE8000000000000#64, .next, .emit1, .emit0, .narrow, .wordDone, .nextBit, .refill],
    observe (exec i ready) (fun _ => ()) = some () := by decide +kernel
  exact exists_next_of_observe _ (hall i hi)

theorem witness_OnlySuccessfulCreateChangesP : ∃ t, (ready.offer 0x03FD0000000000000#65).resetPending = false ∧
    step (ready.offer 0x03FD0000000000000#65) = .next t ∧ t.p ≠ (ready.offer 0x03FD0000000000000#65).p := by
  have h : observe (step (ready.offer 0x03FD0000000000000#65)) State.p = some 0x3FD0000000000000#64 := by decide +kernel
  obtain ⟨t, ht⟩ := exists_next_of_observe (step (ready.offer 0x03FD0000000000000#65)) (by decide +kernel)
  refine ⟨t, by decide, ht, ?_⟩
  rw [ht] at h
  have hp : t.p = 0x3FD0000000000000#64 := Option.some.inj h
  rw [hp]
  decide

/-- Two states that differ in every register nothing has written, and two that differ in the working registers only;
the first steps to a next state, the second stops. -/
theorem witness_UnwrittenRegistersNeverRead :
    AgreeOnWritten State.reset { State.reset with p := 1, low := 2, rsvCnt := 9, wlow := 3, nemit := 7, op := .next } ∧
    AgreeOnWritten ready { ready with wlow := 3, whigh := 4, pRecip := 5, result := 6 } ∧
    AgreeOnWritten { hung with rsvCnt := 0#7, entSilent := true } { hung with rsvCnt := 0#7, entSilent := true, op := .create } ∧
    step State.reset = .next State.reset ∧
    step { hung with rsvCnt := 0#7, entSilent := true } = .fault .entropySourceSilent := by
  refine ⟨?_, ?_, ?_, rfl, ?_⟩
  · constructor <;> first | rfl | (intro h; revert h; decide)
  · constructor <;> first | rfl | exact fun _ => ⟨rfl, rfl, rfl⟩ | exact fun _ => ⟨rfl, rfl⟩ | (intro h; revert h; decide)
  · constructor <;> first | rfl | exact fun _ => ⟨rfl, rfl, rfl⟩ | exact fun _ => ⟨rfl, rfl⟩ |
      exact fun _ => ⟨rfl, rfl, rfl, rfl, rfl, rfl⟩
  · have h : { hung with rsvCnt := 0#7, entSilent := true }.selected = some .narrow := by decide +kernel
    simp only [step, h]
    rfl

/-- Two resets whose registers differ. -/
theorem witness_ResetValuesUnobservable : State.reset.valid = false ∧ State.reset.phase = .idle ∧
    { State.reset with p := 1, low := 2, rsvCnt := 9 }.valid = false ∧
    { State.reset with p := 1, low := 2, rsvCnt := 9 }.phase = .idle ∧
    ∃ t : State, core.run 3 State.reset = .next t := ⟨rfl, rfl, rfl, rfl, State.reset, rfl⟩

/-- V-HANG1 from step 56 on. -/
theorem witness_CollapsedIntervalNeverResponds : Collapsed hung :=
  ⟨⟨rfl, by decide, rfl, rfl⟩, ⟨by decide, by decide⟩, rfl, rfl⟩

/-- V-TINY1 after its first `EMIT1`, whatever NaN that leaves. -/
theorem witness_NaNIntervalNeverEmits : NaNInterval
    { hung with p := 0x0004000000000000#64, wlow := fmul 0#64 0x7FF0000000000000#64, whigh := 0x7FF0000000000000#64 } :=
  ⟨⟨rfl, by decide, rfl, rfl⟩, (by
    have h : valueOf 0#64 = .fin false 0 ∧ valueOf 0x7FF0000000000000#64 = .inf false := by decide +kernel
    show isNaN (fmul 0#64 0x7FF0000000000000#64) = true
    have hz : fmul 0#64 0x7FF0000000000000#64 = quietNaN .mul 0#64 0x7FF0000000000000#64 := by
      simp only [fmul, h.1, h.2, if_pos]
    rw [hz]
    exact isNaN_quietNaN _ _ _), by decide +kernel⟩

/-- V-ZW1 from step 55 on, below the threshold and above it, and at `WORD_DONE`. -/
theorem witness_ZeroWidthIntervalIsDead :
    let low := { running 0x3FECCCCCCCCCCCCC#64 0x3FECCCCCCCCCCCCC#64 with p := 0x3FECCCCCCCCCCCCD#64, nemit := 31#6 }
    let one := { running 0x3FF0000000000000#64 0x3FF0000000000000#64 with p := 0x3FECCCCCCCCCCCCD#64, nemit := 32#6 }
    (low.phase = .run ∧ low.resetPending = false ∧ low.wlow = low.whigh ∧ isNaN low.wlow = false ∧ isNaN low.p = false ∧
      feq low.wlow low.p = false ∧ low.nemit.toNat ≠ 32 ∧ flt low.wlow low.p = true) ∧
    (one.phase = .run ∧ one.resetPending = false ∧ one.wlow = one.whigh ∧ isNaN one.wlow = false ∧ isNaN one.p = false ∧
      feq one.wlow one.p = false ∧ one.nemit.toNat = 32 ∧ flt one.wlow one.p = false) := by decide +kernel

theorem witness_DecodedWordLiesInTableRow : decode { format := .sel, value := 0b111 } = .ok .wordDone ∧
    decode { format := .sel, value := 0b1000 } = .error (.wordTooWide .sel) := by decide

/-- The least NaN pattern; two finite patterns; two patterns of sign 0, the greater an infinity. -/
theorem witness_ComparisonsFollowValues : isNaN 0x7FF0000000000001#64 = true ∧
    finiteUnits 0x8000000000000001#64 = some (-1) ∧ finiteUnits 0x0000000000000003#64 = some 3 ∧
    signBit 0x7FEFFFFFFFFFFFFF#64 = false ∧ signBit 0x7FF0000000000000#64 = false ∧
    isNaN 0x7FEFFFFFFFFFFFFF#64 = false ∧ isNaN 0x7FF0000000000000#64 = false := by decide +kernel

/-- Finite operands, a subnormal and a normal one; a zero divisor is shut out only where the quotient needs it. -/
theorem witness_FloatCorrectlyRounded : valueOf 0x8000000000000001#64 = .fin true 1 ∧
    valueOf 0x0010000000000000#64 = .fin false (2 ^ 52) ∧ (2 ^ 52 : Nat) ≠ 0 := by decide +kernel

/-- Each clause: a NaN; two infinities of unlike and of like sign; an infinity with a zero and with a non-zero number; a
number over a zero. -/
theorem witness_FloatExceptionalResults : isNaN 0x7FF8000000000000#64 = true ∧
    valueOf 0x7FF0000000000000#64 = .inf false ∧ valueOf 0xFFF0000000000000#64 = .inf true ∧
    valueOf 0x8000000000000000#64 = .fin true 0 ∧ valueOf 0x0000000000000001#64 = .fin false 1 := by decide +kernel

/-- V-E1-8: the NaN of `0 * infinity` is a NaN whatever the free sign and payload are. -/
theorem test_free_nan (a b : Word) (o : FOp) : isNaN (quietNaN o a b) = true := isNaN_quietNaN o a b

end Sys2Proof.Tests
end

section
/-! Proofs of the statements about the encoding (30_encoding.md): command words (R43, R47) and selector rows (R49). -/

namespace Sys2Proof

/-- The number of a command word: `op` stands above the 64 bits of `arg` (R43). -/
theorem commandWord_toNat (op : BitVec 1) (arg : Word) :
    (commandWord op arg).toNat = 2 ^ 64 * op.toNat + arg.toNat := by
  rw [commandWord, BitVec.toNat_append, Nat.shiftLeft_eq, Nat.mul_comm, Nat.two_pow_add_eq_or_of_lt arg.isLt]

theorem commandWord_op (op : BitVec 1) (arg : Word) : (commandWord op arg).getLsbD 64 = op.getLsbD 0 :=
  BitVec.getLsbD_append

theorem commandWord_arg (op : BitVec 1) (arg : Word) : (commandWord op arg).extractLsb' 0 64 = arg :=
  BitVec.extractLsb'_append_eq_right

/-- R47: the test of `CMD[64]` decides between the two commands, and only `CREATE` keeps `CMD[63:0]`. -/
theorem decodeCommand_commandWord (op : BitVec 1) (arg : Word) :
    decodeCommand (commandWord op arg) = if op.getLsbD 0 then .next else .create arg := by
  rw [decodeCommand, commandWord_op, commandWord_arg]

/-- Settles O37: both words are command words, so the decoder answers by their top bit. -/
theorem commandDecodeIsTotal : Obligations.CommandDecodeIsTotal := by
  intro arg
  constructor
  · have h : arg.toNat = (commandWord 0#1 arg).toNat := by simp [commandWord_toNat]
    rw [h, decode_command, decodeCommand_commandWord]
    rfl
  · have h : 2 ^ 64 + arg.toNat = (commandWord 1#1 arg).toNat := by simp [commandWord_toNat]
    rw [h, decode_command, decodeCommand_commandWord]
    rfl

/-! Each row of R49, read as a condition on the three bits: it asks for its own bit and shuts out the bits above it, so
the rows are the branches of the decoder's if-chain. -/

theorem wordDone_row_admits : ∀ w : BitVec 3,
    (tableRow .wordDone).admits { format := .sel, value := w.toNat } = w.getLsbD 2 := by decide

theorem emit1_row_admits : ∀ w : BitVec 3,
    (tableRow .emit1).admits { format := .sel, value := w.toNat } = (!w.getLsbD 2 && w.getLsbD 1) := by decide

theorem emit0_row_admits : ∀ w : BitVec 3,
    (tableRow .emit0).admits { format := .sel, value := w.toNat } =
      (!w.getLsbD 2 && !w.getLsbD 1 && w.getLsbD 0) := by decide

theorem narrow_row_admits : ∀ w : BitVec 3,
    (tableRow .narrow).admits { format := .sel, value := w.toNat } =
      (!w.getLsbD 2 && !w.getLsbD 1 && !w.getLsbD 0) := by decide

/-- R49 for a loop micro-operation: the selector decodes to it exactly when its row admits the selector. -/
theorem decodeSel_eq_iff_row_admits (w : BitVec 3) {i : Instr} (hi : i ∈ [Instr.wordDone, .emit1, .emit0, .narrow]) :
    decodeSel w = i ↔ (tableRow i).admits { format := .sel, value := w.toNat } = true := by
  have hrows : i = .wordDone ∨ i = .emit1 ∨ i = .emit0 ∨ i = .narrow := by simpa using hi
  rw [decodeSel]
  obtain rfl | rfl | rfl | rfl := hrows
  · rw [wordDone_row_admits]; split_ifs <;> simp_all
  · rw [emit1_row_admits]; split_ifs <;> simp_all
  · rw [emit0_row_admits]; split_ifs <;> simp_all
  · rw [narrow_row_admits]; split_ifs <;> simp_all

/-- Settles O9: the selector's bits are its three flags; a selector decodes to a loop micro-operation, and to the one
whose row admits it. -/
theorem selectorRowsPartition : Obligations.SelectorRowsPartition := by
  refine ⟨fun s => ⟨Machine.selector_done s, Machine.selector_lt s, Machine.selector_gt s⟩, fun w i => ?_⟩
  have hdecode : decode { format := .sel, value := w.toNat } = .ok i ↔ decodeSel w = i := by
    rw [decode_selector, Except.ok.injEq]
  have hmem : decodeSel w ∈ [Instr.wordDone, .emit1, .emit0, .narrow] := by
    simpa using Machine.decodeSel_cases w
  rw [hdecode]
  constructor
  · rintro rfl
    exact ⟨hmem, (decodeSel_eq_iff_row_admits w hmem).mp rfl⟩
  · rintro ⟨hi, hrow⟩
    exact (decodeSel_eq_iff_row_admits w hi).mpr hrow

end Sys2Proof
end

section
/-! Proof of the statement about construction (40_construction.md): a successful `CREATE` (R56). -/

namespace Sys2Proof.Machine

/-- R55, read for the operands it lets through: all three of its tests fail. -/
theorem invalidProbability_eq_false_iff (arg : Word) :
    invalidProbability arg = false ↔ arg.getLsbD 63 = false ∧ fgt arg fOne = false ∧ isNaN arg = false := by
  simp only [invalidProbability, signBit, Bool.or_eq_false_iff, and_assoc]

/-- R54, R56: an idle block accepts a `CREATE` with a valid operand, constructs the generator and answers `ST_OK`. -/
theorem exec_create_of_valid {arg : Word} {s : State} (hidle : s.phase = .idle)
    (hvalid : invalidProbability arg = false) :
    exec (.create arg) s = .next (((s.accept .create).construct arg).respond stOk 0#32) := by
  simp only [exec, execCreate, hidle, hvalid, Bool.false_eq_true, if_false]

/-- R34: in an idle block a response changes the response port and nothing else. -/
theorem State.respond_of_idle {s : State} (hidle : s.phase = .idle) (status : BitVec 2) (data : BitVec 32) :
    s.respond status data = { s with rspPort := s.rspPort ++ [rspWord status data] } := by
  rw [State.respond, ← hidle]

/-- R44: the response word of a success without data. -/
theorem rspWord_stOk_zero : rspWord stOk 0#32 = 0x000000000#34 := by decide

end Sys2Proof.Machine

namespace Sys2Proof

open Machine

/-- Settles O1: the operand passes R55, so the step is acceptance, construction and the response, and the response finds
the block idle already. -/
theorem createConstructsGenerator : Obligations.CreateConstructsGenerator := by
  intro arg s hidle hsign hgt hnan
  have hvalid : invalidProbability arg = false :=
    (invalidProbability_eq_false_iff arg).mpr ⟨hsign, hgt, hnan⟩
  have hconstructed : ((s.accept .create).construct arg).phase = .idle := hidle
  rw [exec_create_of_valid hidle hvalid, State.respond_of_idle hconstructed, rspWord_stOk_zero]
  rfl

end Sys2Proof
end

section
/-! What the sequencer selects in `RUN` (R49, R64), and the meanings of `NEXT` and of the loop's micro-operations
(41_word_generation.md) as the named operations they run: facts for the proofs of the statements below. -/

namespace Sys2Proof.Machine

/-! ### Selection in `RUN` -/

/-- R49, R64: the selector of a state decodes by the loop's own if-chain. -/
theorem decodeSel_selector (s : State) :
    decodeSel (selector s) =
      if s.nemit.toNat = 32 then .wordDone
      else if flt s.whigh s.p then .emit1
      else if fgt s.wlow s.p then .emit0
      else .narrow := by
  obtain ⟨hdone, hlt, hgt⟩ := selectorRowsPartition.1 s
  rw [decodeSel, hdone, hlt, hgt]
  simp only [decide_eq_true_eq]

theorem selected_of_run {s : State} (hrun : s.phase = .run) : s.selected = some (decodeSel (selector s)) := by
  rw [State.selected, hrun]

theorem step_of_run {s : State} (hreset : s.resetPending = false) (hrun : s.phase = .run) :
    step s = exec (decodeSel (selector s)) s := by
  simp only [step, hreset, selected_of_run hrun, Bool.false_eq_true, if_false]

theorem selected_wordDone_iff {s : State} (hrun : s.phase = .run) :
    s.selected = some .wordDone ↔ s.nemit.toNat = 32 := by
  rw [selected_of_run hrun, decodeSel_selector]
  split_ifs <;> simp [*]

theorem selected_emit1_iff {s : State} (hrun : s.phase = .run) :
    s.selected = some .emit1 ↔ s.nemit.toNat ≠ 32 ∧ flt s.whigh s.p = true := by
  rw [selected_of_run hrun, decodeSel_selector]
  split_ifs <;> simp [*]

theorem selected_emit0_iff {s : State} (hrun : s.phase = .run) :
    s.selected = some .emit0 ↔ s.nemit.toNat ≠ 32 ∧ flt s.whigh s.p = false ∧ fgt s.wlow s.p = true := by
  rw [selected_of_run hrun, decodeSel_selector]
  split_ifs <;> simp [*]

theorem selected_narrow_iff {s : State} (hrun : s.phase = .run) :
    s.selected = some .narrow ↔ s.nemit.toNat ≠ 32 ∧ flt s.whigh s.p = false ∧ fgt s.wlow s.p = false := by
  rw [selected_of_run hrun, decodeSel_selector]
  split_ifs <;> simp [*]

/-! ### The meanings -/

/-- R61, R62: an idle block with a non-degenerate generator accepts `NEXT` and starts a word. -/
theorem exec_next_of_nondegenerate {s : State} (hidle : s.phase = .idle) (hvalid : s.valid = true)
    (hzero : feq s.p fZero = false) (hone : feq s.p fOne = false) :
    exec .next s = .next (s.accept .next).startWord := by
  simp only [exec, execNext, hidle, hvalid, hzero, hone, Bool.not_true, Bool.false_eq_true, if_false]

theorem exec_emit1 (s : State) :
    exec .emit1 s = .next (s.emit true (fmul s.wlow s.pRecip) (fmul s.whigh s.pRecip)) := rfl

theorem exec_emit0 (s : State) :
    exec .emit0 s =
      .next (s.emit false (fmul (fsub s.wlow s.p) s.qRecip) (fmul (fsub s.whigh s.p) s.qRecip)) := rfl

theorem exec_wordDone (s : State) :
    exec .wordDone s = .next ({ s with low := s.wlow, high := s.whigh }.respond stOk s.result) := rfl

/-- R67: once the fresh bit is taken, `NARROW` halves the interval. -/
theorem exec_narrow_of_takeFreshBit {s t : State} (h : s.takeFreshBit = .ok t) :
    exec .narrow s = .next t.halve := by
  simp only [exec, execNarrow, h]

/-! ### Who leaves `LOW` and `HIGH` alone -/

theorem toResult_eq_next_iff {e : Except Fault State} {t : State} : toResult e = .next t ↔ e = .ok t := by
  cases e <;> simp [toResult]

theorem State.takeFreshBit_keeps_interval {s t : State} (h : s.takeFreshBit = .ok t) :
    t.low = s.low ∧ t.high = s.high := by
  rw [(State.takeFreshBit_ok h).1]
  exact ⟨rfl, rfl⟩

theorem State.refillReservoir_keeps_interval {s t : State} (h : s.refillReservoir = .ok t) :
    t.low = s.low ∧ t.high = s.high := by
  cases hsilent : s.entSilent with
  | true => rw [State.refillReservoir_silent hsilent] at h; cases h
  | false => rw [State.refillReservoir_answering hsilent] at h; cases h; exact ⟨rfl, rfl⟩

theorem execNext_keeps_interval {s t : State} (h : execNext s = .next t) : t.low = s.low ∧ t.high = s.high := by
  obtain ⟨-, rfl⟩ | ⟨-, -, rfl⟩ | ⟨-, -, -, rfl⟩ | ⟨-, -, -, -, rfl⟩ | ⟨-, -, -, -, rfl⟩ := execNext_cases h <;>
    exact ⟨rfl, rfl⟩

/-- R69: only `WORD_DONE` and `CREATE` write `LOW` or `HIGH`. -/
theorem exec_keeps_interval {i : Instr} {s t : State} (h : exec i s = .next t)
    (hdone : i ≠ .wordDone) (hcreate : ∀ arg, i ≠ .create arg) : t.low = s.low ∧ t.high = s.high := by
  cases i with
  | create arg => exact absurd rfl (hcreate arg)
  | next => exact execNext_keeps_interval h
  | emit1 => cases h; exact ⟨rfl, rfl⟩
  | emit0 => cases h; exact ⟨rfl, rfl⟩
  | narrow =>
    obtain ⟨u, hu, rfl⟩ := execNarrow_cases h
    have hkept : u.low = s.low ∧ u.high = s.high := State.takeFreshBit_keeps_interval hu
    exact hkept
  | wordDone => exact absurd rfl hdone
  | nextBit => exact State.takeFreshBit_keeps_interval (toResult_eq_next_iff.mp h)
  | refill => exact State.refillReservoir_keeps_interval (toResult_eq_next_iff.mp h)

end Sys2Proof.Machine
end

section
/-! R27 on finite operands of sign bit 0: each operation is one rounding of a combination of their magnitudes. With it
the worked examples of R62, R65, R66 and R67 for `P = 0.75` are computed. -/

namespace Sys2Proof.Machine

theorem roundTo_false_eq {num den : Nat} {c : Word} (h : roundUnits num den = c.toNat) : roundTo false num den = c :=
  BitVec.eq_of_toNat_eq (by rw [roundTo_toNat, h])

theorem fmul_eq_of_roundUnits {a b c : Word} (ha : a.toNat < infMagnitude) (hb : b.toNat < infMagnitude)
    (h : roundUnits (magOf a.toNat * magOf b.toNat) unitsInOne = c.toNat) : fmul a b = c := by
  rw [fmul_fin (valueOf_nonneg ha) (valueOf_nonneg hb)]
  exact roundTo_false_eq h

theorem fdiv_eq_of_roundUnits {a b c : Word} (ha : a.toNat < infMagnitude) (hb : b.toNat < infMagnitude)
    (hpos : 0 < b.toNat) (h : roundUnits (magOf a.toNat * unitsInOne) (magOf b.toNat) = c.toNat) : fdiv a b = c := by
  have hb0 : 0 < magOf b.toNat := magOf_strictMono hpos
  rw [fdiv_fin (valueOf_nonneg ha) (valueOf_nonneg hb) hb0.ne']
  exact roundTo_false_eq h

theorem fsub_eq_of_roundUnits {a b c : Word} (ha : a.toNat < infMagnitude) (hlt : b.toNat < a.toNat)
    (h : roundUnits (magOf a.toNat - magOf b.toNat) 1 = c.toNat) : fsub a b = c := by
  have hpos : magOf b.toNat < magOf a.toNat := magOf_strictMono hlt
  obtain ⟨neg, hround, hneg⟩ := fsub_fin (valueOf_nonneg ha) (valueOf_nonneg (hlt.trans ha))
  simp only [signedUnits, Bool.false_eq_true, if_false] at hround hneg
  rw [hround, hneg (by omega), decide_eq_false (by omega), Int.natAbs_natCast_sub_natCast_of_ge hpos.le]
  exact roundTo_false_eq h

theorem fadd_eq_of_roundUnits {a b c : Word} (ha : a.toNat < infMagnitude) (hb : b.toNat < infMagnitude)
    (hpos : 0 < b.toNat) (h : roundUnits (magOf a.toNat + magOf b.toNat) 1 = c.toNat) : fadd a b = c := by
  have hb0 : 0 < magOf b.toNat := magOf_strictMono hpos
  obtain ⟨neg, hround, hneg⟩ := fadd_fin (valueOf_nonneg ha) (valueOf_nonneg hb)
  simp only [signedUnits, Bool.false_eq_true, if_false] at hround hneg
  rw [hround, hneg (by omega), decide_eq_false (by omega)]
  exact roundTo_false_eq h

/-! ### The worked examples for `P = 0.75`

The numbers are in units of `2^-1074`, so the exponents to evaluate go up to 1074. -/

section

set_option exponentiation.threshold 1100

theorem fsub_one_three_quarters : fsub 0x3FF0000000000000#64 0x3FE8000000000000#64 = 0x3FD0000000000000#64 :=
  fsub_eq_of_roundUnits (by decide) (by decide) (by norm_num [roundUnits, magOf, infMagnitude, Nat.log2_eq_log_two])

/-- R62: the reciprocals of 0.75 and 0.25; only the first is inexact. -/
theorem reciprocals_three_quarters :
    fdiv 0x3FF0000000000000#64 0x3FE8000000000000#64 = 0x3FF5555555555555#64 ∧
    fdiv 0x3FF0000000000000#64 (fsub 0x3FF0000000000000#64 0x3FE8000000000000#64) = 0x4010000000000000#64 := by
  rw [fsub_one_three_quarters]
  constructor <;> refine fdiv_eq_of_roundUnits (by decide) (by decide) (by decide) ?_ <;>
    norm_num [roundUnits, magOf, infMagnitude, unitsInOne_eq rfl, Nat.log2_eq_log_two]

/-- R65: `[0.0, 0.5]` rescaled by the reciprocal of 0.75. -/
theorem emit1_rescale_three_quarters :
    fmul 0x0000000000000000#64 0x3FF5555555555555#64 = 0x0000000000000000#64 ∧
    fmul 0x3FE0000000000000#64 0x3FF5555555555555#64 = 0x3FE5555555555555#64 := by
  constructor <;> refine fmul_eq_of_roundUnits (by decide) (by decide) ?_ <;>
    norm_num [roundUnits, magOf, infMagnitude, unitsInOne_eq rfl, Nat.log2_eq_log_two]

/-- R66: `[0.875, 1.0]` shifted by 0.75 and rescaled by 4. -/
theorem emit0_rescale_three_quarters :
    fmul (fsub 0x3FEC000000000000#64 0x3FE8000000000000#64) 0x4010000000000000#64 = 0x3FE0000000000000#64 ∧
    fmul (fsub 0x3FF0000000000000#64 0x3FE8000000000000#64) 0x4010000000000000#64 = 0x3FF0000000000000#64 := by
  have hlow : fsub 0x3FEC000000000000#64 0x3FE8000000000000#64 = 0x3FC0000000000000#64 :=
    fsub_eq_of_roundUnits (by decide) (by decide) (by norm_num [roundUnits, magOf, infMagnitude, Nat.log2_eq_log_two])
  rw [hlow, fsub_one_three_quarters]
  constructor <;> refine fmul_eq_of_roundUnits (by decide) (by decide) ?_ <;>
    norm_num [roundUnits, magOf, infMagnitude, unitsInOne_eq rfl, Nat.log2_eq_log_two]

/-- R67: the midpoint of `[0.0, 1.0]`. -/
theorem midpoint_zero_one :
    fmul 0x3FE0000000000000#64 (fadd 0x0000000000000000#64 0x3FF0000000000000#64) = 0x3FE0000000000000#64 := by
  have hsum : fadd 0x0000000000000000#64 0x3FF0000000000000#64 = 0x3FF0000000000000#64 :=
    fadd_eq_of_roundUnits (by decide) (by decide) (by decide)
      (by norm_num [roundUnits, magOf, infMagnitude, Nat.log2_eq_log_two])
  rw [hsum]
  refine fmul_eq_of_roundUnits (by decide) (by decide) ?_
  norm_num [roundUnits, magOf, infMagnitude, unitsInOne_eq rfl, Nat.log2_eq_log_two]

end

end Sys2Proof.Machine
end

section
/-! Proofs of the statements about word generation (41_word_generation.md): the start of a word (R62), the selection of
its loop (R64) and the four micro-operations (R65 to R67, R69). -/

namespace Sys2Proof

open Machine

/-- Settles O10: the step runs the decoded selector, which is the if-chain. -/
theorem runStepFollowsComparisons : Obligations.RunStepFollowsComparisons := by
  intro s hreset hrun
  rw [step_of_run hreset hrun, decodeSel_selector]
  split_ifs <;> rfl

/-- Settles O7: none of the tests of R86 (b) holds, so the step is acceptance and the start of a word. -/
theorem nextStartsWord : Obligations.NextStartsWord := by
  refine ⟨fun s hidle hvalid hzero hone => ?_, reciprocals_three_quarters⟩
  rw [exec_next_of_nondegenerate hidle hvalid hzero hone]
  rfl

/-- Settles O11: the emit of a 1 with both endpoints rescaled, and its branch of the selection. -/
theorem emit1EmitsOne : Obligations.Emit1EmitsOne :=
  ⟨exec_emit1, fun _ => selected_emit1_iff, emit1_rescale_three_quarters⟩

/-- Settles O12: the emit of a 0 with both endpoints shifted and rescaled, and its branch of the selection. -/
theorem emit0EmitsZero : Obligations.Emit0EmitsZero :=
  ⟨exec_emit0, fun _ => selected_emit0_iff, emit0_rescale_three_quarters⟩

/-- Settles O13: with the reservoir empty the fresh bit comes from the upcoming word, otherwise from the buffer; then
the interval is halved on it. -/
theorem narrowHalvesInterval : Obligations.NarrowHalvesInterval := by
  refine ⟨fun s havail => ?_, fun _ => selected_narrow_iff, midpoint_zero_one⟩
  by_cases hempty : s.rsvCnt = 0#7
  · have hanswers : s.entSilent = false := havail.resolve_left (not_not_intro hempty)
    rw [exec_narrow_of_takeFreshBit (State.takeFreshBit_empty hempty hanswers)]
    simp only [hempty, if_true]
    rfl
  · rw [exec_narrow_of_takeFreshBit (State.takeFreshBit_buffered hempty)]
    simp only [hempty, if_false]
    rfl

/-- Settles O14: the persisted interval with its response, the first branch of the selection, and the frame of every
other instruction. -/
theorem wordDonePersistsAndResponds : Obligations.WordDonePersistsAndResponds := by
  refine ⟨exec_wordDone, fun _ => selected_wordDone_iff, fun i s t hexec hchanged => ?_⟩
  by_contra hother
  obtain ⟨hdone, hcreate⟩ := not_or.mp hother
  obtain ⟨hlow, hhigh⟩ := exec_keeps_interval hexec hdone fun arg h => hcreate ⟨arg, h⟩
  exact hchanged.elim (absurd hlow) (absurd hhigh)

end Sys2Proof
end

section
/-! Proofs of the remaining statements about the encoding (30_encoding.md): decode against encode, and decode against the
opcode table. -/

/-! The joint compile of all the files runs near its limit of memory while the tests are checked. The option below has a
proof elaborated with its statement, not on a thread of its own; it stands in each of the sections compiled meanwhile. -/

set_option deprecated.oldSectionVars true

namespace Sys2Proof

/-- A raw word that fits is the number of a word of its format's width. -/
theorem decode_ok_fits {e : Encoded} {i : Instr} (h : decode e = .ok i) : e.value < 2 ^ e.format.width := by
  by_contra hwide
  rw [decode_of_too_wide hwide] at h
  cases h

theorem decode_ok_iff_fits (e : Encoded) : (∃ i, decode e = .ok i) ↔ e.value < 2 ^ e.format.width :=
  ⟨fun ⟨_, h⟩ => decode_ok_fits h, fun h => ⟨_, decode_of_fits h⟩⟩

theorem decode_error_eq {e : Encoded} {err : DecodeError} (h : decode e = .error err) :
    err = .wordTooWide e.format := by
  have hwide : ¬ e.value < 2 ^ e.format.width := fun hfits => by rw [decode_of_fits hfits] at h; cases h
  rw [decode_of_too_wide hwide] at h
  cases h
  rfl

/-- R47: a command word lies in the row of the command it decodes to, because both rows look at bit 64 alone. -/
theorem command_row_admits (w : CmdWord) :
    (tableRow (decodeCommand w)).admits { format := .c, value := w.toNat } = true := by
  have hmask : w.toNat &&& 0x10000000000000000 = if w.getLsbD 64 then 0x10000000000000000 else 0 := by
    rw [show 0x10000000000000000 = 2 ^ 64 by norm_num, Nat.and_two_pow, ← BitVec.getLsbD]
    cases w.getLsbD 64 <;> rfl
  rw [decodeCommand]
  split_ifs with hop
  · rw [if_pos hop] at hmask
    simp [tableRow, TableRow.admits, hmask]
  · rw [if_neg hop] at hmask
    simp [tableRow, TableRow.admits, hmask]

/-- R49: a selector lies in the row of the micro-operation it decodes to. -/
theorem selector_row_admits (w : BitVec 3) :
    (tableRow (decodeSel w)).admits { format := .sel, value := w.toNat } = true :=
  (decodeSel_eq_iff_row_admits w (by simpa using Machine.decodeSel_cases w)).mp rfl

/-- R50: so does `EMPTY`. -/
theorem empty_row_admits : ∀ w : BitVec 1,
    (tableRow (decodeEmpty w)).admits { format := .empty, value := w.toNat } = true := by decide

/-- A raw word lies in the row of the instruction it decodes to. -/
theorem row_admits_of_decode {e : Encoded} {i : Instr} (h : decode e = .ok i) : (tableRow i).admits e = true := by
  have hfits := decode_ok_fits h
  obtain ⟨f, v⟩ := e
  cases f with
  | c =>
    obtain ⟨w, rfl⟩ : ∃ w : CmdWord, w.toNat = v := ⟨BitVec.ofNatLT v hfits, BitVec.toNat_ofNatLT ..⟩
    rw [decode_command] at h
    cases h
    exact command_row_admits w
  | sel =>
    obtain ⟨w, rfl⟩ : ∃ w : BitVec 3, w.toNat = v := ⟨BitVec.ofNatLT v hfits, BitVec.toNat_ofNatLT ..⟩
    rw [decode_selector] at h
    cases h
    exact selector_row_admits w
  | empty =>
    obtain ⟨w, rfl⟩ : ∃ w : BitVec 1, w.toNat = v := ⟨BitVec.ofNatLT v hfits, BitVec.toNat_ofNatLT ..⟩
    rw [decode_empty] at h
    cases h
    exact empty_row_admits w

/-- Settles O36: a command comes back by its top bit and its operand, a micro-operation because its word is one of the
few of its format. -/
theorem decodeOfEncode : Obligations.DecodeOfEncode := by
  intro i
  cases i with
  | create arg => rw [encode, decode_command, decodeCommand_commandWord]; rfl
  | next => rw [encode, decode_command, decodeCommand_commandWord]; rfl
  | emit1 => exact decode_selector 0b010#3
  | emit0 => exact decode_selector 0b001#3
  | narrow => exact decode_selector 0b000#3
  | wordDone => exact decode_selector 0b100#3
  | nextBit => exact decode_empty 0b0#1
  | refill => exact decode_empty 0b1#1

/-- Settles O38: the row by the format of the word, acceptance and refusal by its width. -/
theorem decodedWordLiesInTableRow : Obligations.DecodedWordLiesInTableRow :=
  fun e => ⟨fun _ => row_admits_of_decode, decode_ok_iff_fits e, fun _ => decode_error_eq⟩

/-- Settles O39: each literal is the number of a word of its format, whose decoding computes. -/
theorem specWordsDecode : Obligations.SpecWordsDecode :=
  ⟨decode_command 0x03FE8000000000000#65, decode_command 0x1DEADBEEFDEADBEEF#65, decode_selector 0b011#3,
    decode_selector 0b001#3, decode_selector 0b101#3, decode_empty 0b1#1⟩

end Sys2Proof
end

section
/-! The comparisons of R28 by the patterns and by the values, and with them the validity test of R55. -/

set_option deprecated.oldSectionVars true

namespace Sys2Proof.Machine

open Safety

/-! ### Comparisons -/

theorem feq_of_nan_left {a : Word} (h : isNaN a = true) (b : Word) : feq a b = false := by
  unfold feq
  rw [(valueOf_eq_nan_iff a).mpr h]

theorem feq_of_nan_right (a : Word) {b : Word} (h : isNaN b = true) : feq a b = false := by
  unfold feq
  rw [(valueOf_eq_nan_iff b).mpr h]
  cases valueOf a <;> rfl

theorem flt_fin {a b : Word} {s t : Bool} {m n : Nat} (ha : valueOf a = .fin s m) (hb : valueOf b = .fin t n) :
    flt a b = decide (signedUnits s m < signedUnits t n) := by
  simp only [flt, ha, hb]

theorem feq_fin {a b : Word} {s t : Bool} {m n : Nat} (ha : valueOf a = .fin s m) (hb : valueOf b = .fin t n) :
    feq a b = decide (signedUnits s m = signedUnits t n) := by
  unfold feq
  rw [ha, hb]

/-- R28: any two patterns that are no NaN are comparable. -/
theorem flt_or_fgt_of_not_feq {a b : Word} (ha : isNaN a = false) (hb : isNaN b = false) (hne : feq a b = false) :
    flt a b = true ∨ fgt a b = true := by
  have hva : valueOf a ≠ .nan := fun h => by rw [(valueOf_eq_nan_iff a).mp h] at ha; cases ha
  have hvb : valueOf b ≠ .nan := fun h => by rw [(valueOf_eq_nan_iff b).mp h] at hb; cases hb
  unfold fgt flt
  unfold feq at hne
  cases hfa : valueOf a with
  | nan => exact absurd hfa hva
  | inf s =>
    cases hfb : valueOf b with
    | nan => exact absurd hfb hvb
    | inf t => rw [hfa, hfb] at hne; revert hne; cases s <;> cases t <;> simp
    | fin t n => cases s <;> simp
  | fin s m =>
    cases hfb : valueOf b with
    | nan => exact absurd hfb hvb
    | inf t => cases t <;> simp
    | fin t n =>
      rw [hfa, hfb] at hne
      rw [decide_eq_true_eq, decide_eq_true_eq]
      exact lt_or_gt_of_ne (of_decide_eq_false hne)

theorem signBit_eq_false_iff (a : Word) : signBit a = false ↔ a.toNat < 2 ^ 63 := by
  rw [← Bool.not_eq_true, signBit_iff, not_le]

/-- `+infinity` by its pattern. -/
theorem valueOf_of_toNat_eq_infMagnitude {a : Word} (h : a.toNat = infMagnitude) : valueOf a = .inf false := by
  have hinf : infMagnitude < 2 ^ 63 := by decide
  rw [valueOf_inf (by rw [h, Nat.mod_eq_of_lt hinf]), (signBit_eq_false_iff a).mpr (h.trans_lt hinf)]

/-- R28: on patterns of sign bit 0 up to `+infinity`, `flt` is the unsigned comparison. -/
theorem flt_eq_toNat_lt {a b : Word} (ha : a.toNat ≤ infMagnitude) (hb : b.toNat ≤ infMagnitude) :
    flt a b = decide (a.toNat < b.toNat) := by
  obtain ha | ha := ha.lt_or_eq
  · obtain hb | hb := hb.lt_or_eq
    · rw [flt_fin (valueOf_nonneg ha) (valueOf_nonneg hb)]
      simp [signedUnits, magOf_strictMono.lt_iff_lt]
    · rw [flt, valueOf_nonneg ha, valueOf_of_toNat_eq_infMagnitude hb]
      simp [ha, hb]
  · have hnot : ¬ a.toNat < b.toNat := (hb.trans_eq ha.symm).not_gt
    obtain hb | hb := hb.lt_or_eq
    · rw [flt, valueOf_of_toNat_eq_infMagnitude ha, valueOf_nonneg hb]
      simp [hnot]
    · rw [flt, valueOf_of_toNat_eq_infMagnitude ha, valueOf_of_toNat_eq_infMagnitude hb]
      simp [hnot]

/-- A finite pattern's units, by its value. -/
theorem finiteUnits_eq_some {a : Word} {u : Int} (h : finiteUnits a = some u) :
    ∃ s m, valueOf a = .fin s m ∧ signedUnits s m = u := by
  unfold finiteUnits at h
  cases hv : valueOf a with
  | nan => rw [hv] at h; cases h
  | inf s => rw [hv] at h; cases h
  | fin s m => rw [hv] at h; exact ⟨s, m, rfl, Option.some.inj h⟩

/-- A pattern of sign bit 0 that is no NaN is at most `+infinity`. -/
theorem toNat_le_infMagnitude {a : Word} (hs : signBit a = false) (hn : isNaN a = false) : a.toNat ≤ infMagnitude := by
  have hsign := (signBit_eq_false_iff a).mp hs
  rw [← Nat.mod_eq_of_lt hsign]
  exact not_lt.mp fun h => by rw [(isNaN_iff a).mpr h] at hn; cases hn

/-! ### The validity test -/

/-- R55, its derived form: the patterns above that of 1.0 are the greater values, the NaNs and, with the sign bit set,
all the rest. -/
theorem invalidProbability_iff (arg : Word) : invalidProbability arg = true ↔ 0x3FF0000000000000 < arg.toNat := by
  cases hs : signBit arg with
  | true =>
    rw [invalidProbability, hs]
    exact iff_of_true rfl (lt_of_lt_of_le (by decide) ((signBit_iff arg).mp hs))
  | false =>
    have hsign := (signBit_eq_false_iff arg).mp hs
    cases hn : isNaN arg with
    | true =>
      rw [invalidProbability, hn, Bool.or_true]
      exact iff_of_true rfl ((lt_trans (by decide) ((isNaN_iff arg).mp hn)).trans_le (Nat.mod_le _ _))
    | false =>
      have hgt : fgt arg fOne = decide (fOne.toNat < arg.toNat) :=
        flt_eq_toNat_lt (by decide) (toNat_le_infMagnitude hs hn)
      rw [invalidProbability, hs, hn, hgt, Bool.false_or, Bool.or_false, decide_eq_true_eq]
      rfl

theorem invalidProbability_eq_false {arg : Word} (h : invalidProbability arg = false) :
    arg.toNat ≤ 0x3FF0000000000000 := by
  rw [← Bool.not_eq_true, invalidProbability_iff] at h
  exact not_lt.mp h

/-! ### Operations on patterns of sign bit 0, as numbers -/

theorem fadd_toNat {a b : Word} (ha : a.toNat < infMagnitude) (hb : b.toNat < infMagnitude) (hpos : 0 < b.toNat) :
    (fadd a b).toNat = roundUnits (magOf a.toNat + magOf b.toNat) 1 := by
  rw [fadd_eq_of_roundUnits ha hb hpos (roundTo_toNat _ _).symm, roundTo_toNat]

theorem fmul_toNat {a b : Word} (ha : a.toNat < infMagnitude) (hb : b.toNat < infMagnitude) :
    (fmul a b).toNat = roundUnits (magOf a.toNat * magOf b.toNat) unitsInOne := by
  rw [fmul_eq_of_roundUnits ha hb (roundTo_toNat _ _).symm, roundTo_toNat]

theorem openProbability_finite {p : Word} (hp : openProbability p) : p.toNat < infMagnitude := by
  obtain ⟨-, hone⟩ := hp
  exact lt_trans hone (by decide)

end Sys2Proof.Machine

namespace Sys2Proof

open Machine Safety

/-- Settles O3: both sides are true exactly above the pattern of 1.0. -/
theorem validityTestIsIntegerComparison : Obligations.ValidityTestIsIntegerComparison :=
  fun arg => by rw [Bool.eq_iff_iff, decide_eq_true_eq]; exact invalidProbability_iff arg

/-- Settles O40: NaNs by the first arms of the comparisons, finite patterns by their values, sign bit 0 by the order of
the patterns. -/
theorem comparisonsFollowValues : Obligations.ComparisonsFollowValues := by
  refine ⟨fun a b hnan => ?_, fun a b u v hu hv => ?_, fun a b hsa hsb hna hnb => ?_, fun _ _ => rfl, by decide⟩
  · obtain ha | hb := hnan
    · exact ⟨flt_of_nan_left ha b, flt_of_nan_right b ha, feq_of_nan_left ha b⟩
    · exact ⟨flt_of_nan_right a hb, flt_of_nan_left hb a, feq_of_nan_right a hb⟩
  · obtain ⟨s, m, ha, rfl⟩ := finiteUnits_eq_some hu
    obtain ⟨t, n, hb, rfl⟩ := finiteUnits_eq_some hv
    exact ⟨flt_fin ha hb, feq_fin ha hb⟩
  · exact flt_eq_toNat_lt (toNat_le_infMagnitude hsa hna) (toNat_le_infMagnitude hsb hnb)

end Sys2Proof
end

section
/-! What the host's commands, the step and the reservoir do (40_construction.md, 41_word_generation.md sections 1 and 2,
42_bit_reservoir.md, 60_exceptions.md, 70_reset_and_hazards.md section 1). -/

set_option deprecated.oldSectionVars true

namespace Sys2Proof.Machine

/-! ### Commands -/

theorem exec_create_of_invalid {arg : Word} {s : State} (hidle : s.phase = .idle)
    (hinvalid : invalidProbability arg = true) :
    exec (.create arg) s = .next (s.accept .create).raiseInvalidProbability := by
  simp only [exec, execCreate, hidle, hinvalid, if_true]

theorem exec_create_of_run {s : State} (hrun : s.phase = .run) (arg : Word) : exec (.create arg) s = .next s := by
  simp only [exec, execCreate, hrun]

theorem exec_next_of_run {s : State} (hrun : s.phase = .run) : exec .next s = .next s := by
  simp only [exec, execNext, hrun]

theorem exec_next_of_not_valid {s : State} (hidle : s.phase = .idle) (hvalid : s.valid = false) :
    exec .next s = .next (s.accept .next).raiseNotConstructed := by
  simp only [exec, execNext, hidle, hvalid, Bool.not_false, if_true]

theorem exec_next_of_zero {s : State} (hidle : s.phase = .idle) (hvalid : s.valid = true)
    (hzero : feq s.p fZero = true) : exec .next s = .next ((s.accept .next).respond stOk 0#32) := by
  simp only [exec, execNext, hidle, hvalid, hzero, Bool.not_true, Bool.false_eq_true, if_false, if_true]

/-- The two degenerate probabilities differ. -/
theorem feq_zero_of_feq_one {p : Word} (hone : feq p fOne = true) : feq p fZero = false := by
  cases hp : valueOf p with
  | nan => rw [feq_of_nan_left ((valueOf_eq_nan_iff p).mp hp)]
  | inf s => unfold feq; rw [hp, valueOf_fZero]
  | fin s m =>
    rw [feq_fin hp valueOf_fOne, decide_eq_true_eq] at hone
    rw [feq_fin hp valueOf_fZero, hone, decide_eq_false_iff_not]
    have := unitsInOne_pos
    simp only [signedUnits, Bool.false_eq_true, if_false]
    omega

theorem exec_next_of_one {s : State} (hidle : s.phase = .idle) (hvalid : s.valid = true)
    (hone : feq s.p fOne = true) : exec .next s = .next ((s.accept .next).respond stOk 0xFFFFFFFF#32) := by
  simp only [exec, execNext, hidle, hvalid, feq_zero_of_feq_one hone, hone, Bool.not_true, Bool.false_eq_true, if_false,
    if_true]

/-- The block has sent one response and is idle, or it has sent none and a word is in progress. -/
def RespondsOrRuns (s t : State) : Prop :=
  (∃ r, t.rspPort = s.rspPort ++ [r] ∧ t.phase = .idle) ∨ (t.rspPort = s.rspPort ∧ t.phase = .run)

/-- R34, R60: an idle block that runs the command it is offered takes it from the port, records it in `OP`, and answers it
or begins a word. -/
theorem exec_command_effect {s t : State} (hidle : s.phase = .idle) {w : CmdWord}
    (h : exec (decodeCommand w) s = .next t) :
    t.cmdPort = s.cmdPort.tail ∧ t.op = (if w.getLsbD 64 then .next else .create) ∧ RespondsOrRuns s t := by
  have hrun : s.phase ≠ .run := by rw [hidle]; decide
  unfold decodeCommand at h
  cases hbit : w.getLsbD 64 with
  | true =>
    rw [hbit] at h
    obtain ⟨hr, -⟩ | ⟨-, -, rfl⟩ | ⟨-, -, -, rfl⟩ | ⟨-, -, -, -, rfl⟩ | ⟨-, -, -, -, rfl⟩ := execNext_cases h
    · exact absurd hr hrun
    · exact ⟨rfl, rfl, .inl ⟨_, rfl, rfl⟩⟩
    · exact ⟨rfl, rfl, .inl ⟨_, rfl, rfl⟩⟩
    · exact ⟨rfl, rfl, .inl ⟨_, rfl, rfl⟩⟩
    · exact ⟨rfl, rfl, .inr ⟨rfl, rfl⟩⟩
  | false =>
    rw [hbit] at h
    obtain ⟨hr, -⟩ | ⟨-, -, rfl⟩ | ⟨-, -, rfl⟩ := execCreate_cases h
    · exact absurd hr hrun
    · exact ⟨rfl, rfl, .inl ⟨_, rfl, rfl⟩⟩
    · exact ⟨rfl, rfl, .inl ⟨_, rfl, rfl⟩⟩

/-- R76: a `NEXT_BIT` that completes writes the reservoir and the returned bit and spends one bit. -/
theorem State.takeFreshBit_frame {s t : State} (h : s.takeFreshBit = .ok t) :
    ∃ b bits cnt port idx,
      t = { s with bit := b, rsvBits := bits, rsvCnt := cnt, entPort := port, entIdx := idx } ∧
      64 * idx + s.rsvCnt.toNat = 64 * s.entIdx + cnt.toNat + 1 :=
  ⟨_, _, _, _, _, State.takeFreshBit_ok h⟩

/-- All that the micro-operation picked by the selector can do when it answers a next state. -/
theorem exec_decodeSel_cases {w : BitVec 3} {s t : State} (h : exec (decodeSel w) s = .next t) :
    (decodeSel w = .wordDone ∧ t = { s with low := s.wlow, high := s.whigh }.respond stOk s.result) ∨
    (decodeSel w = .emit1 ∧ t = s.emit true (fmul s.wlow s.pRecip) (fmul s.whigh s.pRecip)) ∨
    (decodeSel w = .emit0 ∧
      t = s.emit false (fmul (fsub s.wlow s.p) s.qRecip) (fmul (fsub s.whigh s.p) s.qRecip)) ∨
    (decodeSel w = .narrow ∧ ∃ u, s.takeFreshBit = .ok u ∧ t = u.halve) := by
  obtain hi | hi | hi | hi := decodeSel_cases w <;> rw [hi] at h
  · exact .inl ⟨hi, (Host.Outcome.next.inj h).symm⟩
  · exact .inr (.inl ⟨hi, (Host.Outcome.next.inj h).symm⟩)
  · exact .inr (.inr (.inl ⟨hi, (Host.Outcome.next.inj h).symm⟩))
  · exact .inr (.inr (.inr ⟨hi, execNarrow_cases h⟩))

/-- R34, R60: in `RUN` commands wait, and `WORD_DONE` answers the one in progress. -/
theorem exec_loop_effect {s t : State} (hrun : s.phase = .run) (h : exec (decodeSel (selector s)) s = .next t) :
    t.cmdPort = s.cmdPort ∧ t.op = s.op ∧ RespondsOrRuns s t := by
  obtain ⟨-, rfl⟩ | ⟨-, rfl⟩ | ⟨-, rfl⟩ | ⟨-, u, hu, rfl⟩ := exec_decodeSel_cases h
  · exact ⟨rfl, rfl, .inl ⟨_, rfl, rfl⟩⟩
  · exact ⟨rfl, rfl, .inr ⟨rfl, hrun⟩⟩
  · exact ⟨rfl, rfl, .inr ⟨rfl, hrun⟩⟩
  · obtain ⟨b, bits, cnt, port, idx, rfl, -⟩ := State.takeFreshBit_frame hu
    exact ⟨rfl, rfl, .inr ⟨rfl, hrun⟩⟩

/-! ### The step -/

theorem step_of_reset {s : State} (hreset : s.resetPending = true) : step s = .next s.resetEvent := by
  simp only [step, hreset, if_true]

theorem step_of_command {s : State} {w : CmdWord} {ws : List CmdWord} (hreset : s.resetPending = false)
    (hidle : s.phase = .idle) (hport : s.cmdPort = w :: ws) : step s = exec (decodeCommand w) s := by
  simp only [step, hreset, State.selected, hidle, hport, List.head?_cons, Option.map_some, Bool.false_eq_true, if_false]

theorem step_of_empty_port {s : State} (hreset : s.resetPending = false) (hidle : s.phase = .idle)
    (hport : s.cmdPort = []) : step s = .next s := by
  simp only [step, hreset, State.selected, hidle, hport, List.head?_nil, Option.map_none, Bool.false_eq_true, if_false]

/-- A step without `RESET` waits or runs the selected instruction, which is a command or a micro-operation of the loop. -/
theorem step_runs_selected {s t : State} (hreset : s.resetPending = false) (h : step s = .next t) :
    (s.selected = none ∧ t = s) ∨
      ∃ i, s.selected = some i ∧ exec i s = .next t ∧ i ≠ .refill ∧ i ≠ .nextBit := by
  obtain ⟨hr, -⟩ | ⟨-, hidle, hport, hs⟩ | ⟨w, ws, -, hidle, hport, hs⟩ | ⟨-, hrun, hs⟩ := step_cases s
  · rw [hreset] at hr; cases hr
  · rw [hs] at h
    exact .inl ⟨by rw [State.selected, hidle, hport]; rfl, (Host.Outcome.next.inj h).symm⟩
  · refine .inr ⟨decodeCommand w, by rw [State.selected, hidle, hport]; rfl, hs.symm.trans h, ?_⟩
    obtain ⟨arg, hw⟩ | hw := decodeCommand_cases w <;> rw [hw] <;> exact ⟨Instr.noConfusion, Instr.noConfusion⟩
  · refine .inr ⟨decodeSel (selector s), selected_of_run hrun, hs.symm.trans h, ?_⟩
    obtain hi | hi | hi | hi := decodeSel_cases (selector s) <;> rw [hi] <;>
      exact ⟨Instr.noConfusion, Instr.noConfusion⟩

/-! ### The reservoir -/

theorem one_le_rsvCnt {s : State} (hbuffered : s.rsvCnt ≠ 0#7) : 1 ≤ s.rsvCnt.toNat :=
  Nat.one_le_iff_ne_zero.mpr fun e => hbuffered (BitVec.eq_of_toNat_eq e)

theorem State.takeBit_rsvCnt_toNat {s : State} (hbuffered : s.rsvCnt ≠ 0#7) :
    s.takeBit.rsvCnt.toNat = s.rsvCnt.toNat - 1 :=
  BitVec.toNat_sub_of_le (BitVec.le_def.mpr (one_le_rsvCnt hbuffered))

/-- R77: a `REFILL` that completes writes the reservoir and returns no bit. -/
theorem State.refillReservoir_frame {s t : State} (h : s.refillReservoir = .ok t) :
    ∃ bits cnt port idx, t = { s with rsvBits := bits, rsvCnt := cnt, entPort := port, entIdx := idx } := by
  obtain hsilent | hanswers := Bool.eq_false_or_eq_true s.entSilent
  · rw [State.refillReservoir_silent hsilent] at h; cases h
  · rw [State.refillReservoir_answering hanswers] at h; exact ⟨_, _, _, _, (Except.ok.inj h).symm⟩

end Sys2Proof.Machine
end

section
/-! Which registers each instruction writes (10_state.md section 1, the table's column "written by"). -/

set_option deprecated.oldSectionVars true

namespace Sys2Proof.Machine

/-- The old state with the registers that `i` writes (R10) as they are in the new one. -/
def writtenBy (i : Instr) (s t : State) : State :=
  match i with
  | .create _ => { s with
      p := t.p, low := t.low, high := t.high, rsvBits := t.rsvBits, rsvCnt := t.rsvCnt, valid := t.valid
      op := t.op, cmdPort := t.cmdPort, rspPort := t.rspPort }
  | .next => { s with
      wlow := t.wlow, whigh := t.whigh, pRecip := t.pRecip, qRecip := t.qRecip, result := t.result, nemit := t.nemit
      phase := t.phase, op := t.op, cmdPort := t.cmdPort, rspPort := t.rspPort }
  | .emit1 | .emit0 => { s with wlow := t.wlow, whigh := t.whigh, result := t.result, nemit := t.nemit }
  | .narrow => { s with
      wlow := t.wlow, whigh := t.whigh, bit := t.bit, rsvBits := t.rsvBits, rsvCnt := t.rsvCnt
      entPort := t.entPort, entIdx := t.entIdx }
  | .wordDone => { s with low := t.low, high := t.high, phase := t.phase, rspPort := t.rspPort }
  | .nextBit => { s with
      bit := t.bit, rsvBits := t.rsvBits, rsvCnt := t.rsvCnt, entPort := t.entPort, entIdx := t.entIdx }
  | .refill => { s with
      rsvBits := t.rsvBits, rsvCnt := t.rsvCnt, entPort := t.entPort, entIdx := t.entIdx }

/-- `PHASE` is `IDLE` before and after a `CREATE` that runs. -/
theorem execCreate_writes {arg : Word} {s t : State} (h : execCreate arg s = .next t) :
    t = writtenBy (.create arg) s t := by
  obtain ⟨-, rfl⟩ | ⟨hidle, -, rfl⟩ | ⟨hidle, -, rfl⟩ := execCreate_cases h
  · rfl
  · unfold State.raiseInvalidProbability
    rw [State.respond_of_idle (s := { s.accept .create with valid := false }) hidle]
    rfl
  · rw [State.respond_of_idle (s := (s.accept .create).construct arg) hidle]
    rfl

theorem execNext_writes {s t : State} (h : execNext s = .next t) : t = writtenBy .next s t := by
  obtain ⟨-, rfl⟩ | ⟨-, -, rfl⟩ | ⟨-, -, -, rfl⟩ | ⟨-, -, -, -, rfl⟩ | ⟨-, -, -, -, rfl⟩ := execNext_cases h <;> rfl

/-- An instruction changes no register but those it writes. -/
theorem exec_writes {i : Instr} {s t : State} (h : exec i s = .next t) : t = writtenBy i s t := by
  cases i with
  | create arg => exact execCreate_writes h
  | next => exact execNext_writes h
  | emit1 => cases h; rfl
  | emit0 => cases h; rfl
  | narrow =>
    obtain ⟨u, hu, rfl⟩ := execNarrow_cases h
    obtain ⟨b, bits, cnt, port, idx, rfl, -⟩ := State.takeFreshBit_frame hu
    rfl
  | wordDone => cases h; rfl
  | nextBit => exact (State.takeFreshBit_ok (toResult_eq_next_iff.mp h)).1
  | refill =>
    obtain ⟨bits, cnt, port, idx, rfl⟩ := State.refillReservoir_frame (toResult_eq_next_iff.mp h)
    rfl

/-- Two registers that are both unchanged name no writer. -/
theorem unchanged₂ {α β : Type} {a a' : α} {b b' : β} {writer : Prop} (ha : a = a') (hb : b = b') :
    a ≠ a' ∨ b ≠ b' → writer :=
  Or.rec (absurd ha) (absurd hb)

end Sys2Proof.Machine

namespace Sys2Proof

open Machine Safety

/-- Settles O29: the next state is the old one but for the registers that the instruction writes, so each register outside
its table row is unchanged. -/
theorem registerWriters : Obligations.RegisterWriters := fun i _ _ h =>
  match i, exec_writes h with
  | .create arg, ht => ⟨fun _ => ⟨arg, rfl⟩, fun _ => .inr ⟨arg, rfl⟩, fun _ => .inr (.inr (.inr ⟨arg, rfl⟩)),
    unchanged₂ (congrArg State.wlow ht :) (congrArg State.whigh ht :),
    unchanged₂ (congrArg State.pRecip ht :) (congrArg State.qRecip ht :),
    unchanged₂ (congrArg State.result ht :) (congrArg State.nemit ht :), absurd (congrArg State.phase ht :),
    fun _ => .inr ⟨arg, rfl⟩, fun _ => .inr (.inr ⟨arg, rfl⟩),
    unchanged₂ (congrArg State.entIdx ht :) (congrArg State.entPort ht :),
    (congrArg State.entSilent ht :), (congrArg State.resetPending ht :), (congrArg State.freeIdx ht :)⟩
  | .next, ht => ⟨unchanged₂ (congrArg State.p ht :) (congrArg State.valid ht :),
    unchanged₂ (congrArg State.low ht :) (congrArg State.high ht :),
    unchanged₂ (congrArg State.rsvBits ht :) (congrArg State.rsvCnt ht :),
    fun _ => .inl rfl, fun _ => rfl, fun _ => .inl rfl, fun _ => .inl rfl, fun _ => .inl rfl, fun _ => .inl rfl,
    unchanged₂ (congrArg State.entIdx ht :) (congrArg State.entPort ht :),
    (congrArg State.entSilent ht :), (congrArg State.resetPending ht :), (congrArg State.freeIdx ht :)⟩
  | .emit1, ht => ⟨unchanged₂ (congrArg State.p ht :) (congrArg State.valid ht :),
    unchanged₂ (congrArg State.low ht :) (congrArg State.high ht :),
    unchanged₂ (congrArg State.rsvBits ht :) (congrArg State.rsvCnt ht :), fun _ => .inr (.inl rfl),
    unchanged₂ (congrArg State.pRecip ht :) (congrArg State.qRecip ht :), fun _ => .inr (.inl rfl),
    absurd (congrArg State.phase ht :), unchanged₂ (congrArg State.op ht :) (congrArg State.cmdPort ht :),
    absurd (congrArg State.rspPort ht :), unchanged₂ (congrArg State.entIdx ht :) (congrArg State.entPort ht :),
    (congrArg State.entSilent ht :), (congrArg State.resetPending ht :), (congrArg State.freeIdx ht :)⟩
  | .emit0, ht => ⟨unchanged₂ (congrArg State.p ht :) (congrArg State.valid ht :),
    unchanged₂ (congrArg State.low ht :) (congrArg State.high ht :),
    unchanged₂ (congrArg State.rsvBits ht :) (congrArg State.rsvCnt ht :), fun _ => .inr (.inr (.inl rfl)),
    unchanged₂ (congrArg State.pRecip ht :) (congrArg State.qRecip ht :), fun _ => .inr (.inr rfl),
    absurd (congrArg State.phase ht :), unchanged₂ (congrArg State.op ht :) (congrArg State.cmdPort ht :),
    absurd (congrArg State.rspPort ht :), unchanged₂ (congrArg State.entIdx ht :) (congrArg State.entPort ht :),
    (congrArg State.entSilent ht :), (congrArg State.resetPending ht :), (congrArg State.freeIdx ht :)⟩
  | .narrow, ht => ⟨unchanged₂ (congrArg State.p ht :) (congrArg State.valid ht :),
    unchanged₂ (congrArg State.low ht :) (congrArg State.high ht :), fun _ => .inr (.inr (.inl rfl)),
    fun _ => .inr (.inr (.inr rfl)), unchanged₂ (congrArg State.pRecip ht :) (congrArg State.qRecip ht :),
    unchanged₂ (congrArg State.result ht :) (congrArg State.nemit ht :),
    absurd (congrArg State.phase ht :), unchanged₂ (congrArg State.op ht :) (congrArg State.cmdPort ht :),
    absurd (congrArg State.rspPort ht :), fun _ => .inr (.inr rfl),
    (congrArg State.entSilent ht :), (congrArg State.resetPending ht :), (congrArg State.freeIdx ht :)⟩
  | .wordDone, ht => ⟨unchanged₂ (congrArg State.p ht :) (congrArg State.valid ht :), fun _ => .inl rfl,
    unchanged₂ (congrArg State.rsvBits ht :) (congrArg State.rsvCnt ht :),
    unchanged₂ (congrArg State.wlow ht :) (congrArg State.whigh ht :),
    unchanged₂ (congrArg State.pRecip ht :) (congrArg State.qRecip ht :),
    unchanged₂ (congrArg State.result ht :) (congrArg State.nemit ht :), fun _ => .inr rfl,
    unchanged₂ (congrArg State.op ht :) (congrArg State.cmdPort ht :), fun _ => .inr (.inl rfl),
    unchanged₂ (congrArg State.entIdx ht :) (congrArg State.entPort ht :),
    (congrArg State.entSilent ht :), (congrArg State.resetPending ht :), (congrArg State.freeIdx ht :)⟩
  | .nextBit, ht => ⟨unchanged₂ (congrArg State.p ht :) (congrArg State.valid ht :),
    unchanged₂ (congrArg State.low ht :) (congrArg State.high ht :), fun _ => .inr (.inl rfl),
    unchanged₂ (congrArg State.wlow ht :) (congrArg State.whigh ht :),
    unchanged₂ (congrArg State.pRecip ht :) (congrArg State.qRecip ht :),
    unchanged₂ (congrArg State.result ht :) (congrArg State.nemit ht :),
    absurd (congrArg State.phase ht :), unchanged₂ (congrArg State.op ht :) (congrArg State.cmdPort ht :),
    absurd (congrArg State.rspPort ht :), fun _ => .inr (.inl rfl),
    (congrArg State.entSilent ht :), (congrArg State.resetPending ht :), (congrArg State.freeIdx ht :)⟩
  | .refill, ht => ⟨unchanged₂ (congrArg State.p ht :) (congrArg State.valid ht :),
    unchanged₂ (congrArg State.low ht :) (congrArg State.high ht :), fun _ => .inl rfl,
    unchanged₂ (congrArg State.wlow ht :) (congrArg State.whigh ht :),
    unchanged₂ (congrArg State.pRecip ht :) (congrArg State.qRecip ht :),
    unchanged₂ (congrArg State.result ht :) (congrArg State.nemit ht :),
    absurd (congrArg State.phase ht :), unchanged₂ (congrArg State.op ht :) (congrArg State.cmdPort ht :),
    absurd (congrArg State.rspPort ht :), fun _ => .inl rfl,
    (congrArg State.entSilent ht :), (congrArg State.resetPending ht :), (congrArg State.freeIdx ht :)⟩

end Sys2Proof
end

section
/-! Which instructions stop (R77, R102; log 6), and the statements about the host's commands, the step and the
reservoir. -/

set_option deprecated.oldSectionVars true

namespace Sys2Proof.Machine

theorem State.upcomingWord_zero {s : State} {u : Word} {us : List Word} (h : s.entPort = u :: us) :
    s.upcomingWord 0 = u := by
  unfold State.upcomingWord
  rw [h]
  rfl

theorem exec_nextBit (s : State) : exec .nextBit s = toResult s.takeFreshBit := rfl

theorem exec_refill (s : State) : exec .refill s = toResult s.refillReservoir := rfl

theorem exec_nextBit_of_takeFreshBit {s t : State} (h : s.takeFreshBit = .ok t) : exec .nextBit s = .next t :=
  congrArg toResult h

theorem exec_refill_of_answering {s : State} (h : s.entSilent = false) :
    exec .refill s = .next { s with
      rsvBits := s.upcomingWord 0, rsvCnt := 64#7, entPort := s.entPort.tail, entIdx := s.entIdx + 1 } :=
  congrArg toResult (State.refillReservoir_answering h)

theorem State.refillReservoir_eq_error_iff {s : State} {f : Fault} :
    s.refillReservoir = .error f ↔ f = .entropySourceSilent ∧ s.entSilent = true := by
  cases hsilent : s.entSilent with
  | true => simp [State.refillReservoir_silent hsilent]
  | false => simp [State.refillReservoir_answering hsilent]

theorem State.takeFreshBit_eq_error_iff {s : State} {f : Fault} :
    s.takeFreshBit = .error f ↔ f = .entropySourceSilent ∧ s.entSilent = true ∧ s.rsvCnt = 0#7 := by
  obtain ⟨hc, h⟩ | ⟨hc, hs, h⟩ | ⟨hc, hs, h⟩ := s.takeFreshBit_cases
  · simp [h, hc]
  · simp [h, hs]
  · simp [h, hc, hs]

theorem toResult_eq_fault_iff {e : Except Fault State} {f : Fault} : toResult e = .fault f ↔ e = .error f := by
  cases e <;> simp [toResult]

theorem execNarrow_eq_fault_iff {s : State} {f : Fault} : execNarrow s = .fault f ↔ s.takeFreshBit = .error f := by
  unfold execNarrow
  cases s.takeFreshBit <;> simp

/-- Every command answers a next state. -/
theorem execCreate_answers (arg : Word) (s : State) : ∃ t, execCreate arg s = .next t := by
  unfold execCreate
  split
  · exact ⟨_, rfl⟩
  · split <;> exact ⟨_, rfl⟩

theorem execNext_answers (s : State) : ∃ t, execNext s = .next t := by
  unfold execNext
  split
  · exact ⟨_, rfl⟩
  · simp only
    split_ifs <;> exact ⟨_, rfl⟩

theorem exec_command_answers (w : CmdWord) (s : State) : ∃ t, exec (decodeCommand w) s = .next t := by
  obtain ⟨arg, hw⟩ | hw := decodeCommand_cases w <;> rw [hw]
  · exact execCreate_answers arg s
  · exact execNext_answers s

/-- Only the three instructions that may draw a word can stop. -/
theorem exec_answers {i : Instr} (hi : i ≠ .refill ∧ i ≠ .nextBit ∧ i ≠ .narrow) (s : State) :
    ∃ t, exec i s = .next t := by
  obtain ⟨hrefill, hnextBit, hnarrow⟩ := hi
  cases i with
  | create arg => exact execCreate_answers arg s
  | next => exact execNext_answers s
  | emit1 => exact ⟨_, exec_emit1 s⟩
  | emit0 => exact ⟨_, exec_emit0 s⟩
  | wordDone => exact ⟨_, exec_wordDone s⟩
  | narrow => exact absurd rfl hnarrow
  | nextBit => exact absurd rfl hnextBit
  | refill => exact absurd rfl hrefill

theorem draws_of_not_answers {i : Instr} (hi : ¬ (i ≠ .refill ∧ i ≠ .nextBit ∧ i ≠ .narrow)) :
    i = .refill ∨ i = .nextBit ∨ i = .narrow := by
  rwa [not_and_or, not_and_or, not_not, not_not, not_not] at hi

theorem toResult_ne_refused (x : Except Fault State) (r : Refusal) : toResult x ≠ .refused r := by
  intro h
  cases x <;> cases h

theorem exec_ne_refused (i : Instr) (s : State) (r : Refusal) : exec i s ≠ .refused r := by
  intro h
  by_cases hi : i ≠ .refill ∧ i ≠ .nextBit ∧ i ≠ .narrow
  · obtain ⟨t, ht⟩ := exec_answers hi s
    rw [ht] at h
    cases h
  · obtain rfl | rfl | rfl := draws_of_not_answers hi
    · exact toResult_ne_refused _ _ h
    · exact toResult_ne_refused _ _ h
    · cases hr : s.takeFreshBit with
      | ok u => cases (exec_narrow_of_takeFreshBit hr).symm.trans h
      | error f => cases (execNarrow_eq_fault_iff.mpr hr).symm.trans h

end Sys2Proof.Machine

namespace Sys2Proof

open Machine Safety

/-- Settles O2: the operand fails R55, so the step is acceptance and the error response, and the response finds the block
idle already. -/
theorem createRefusesInvalidProbability : Obligations.CreateRefusesInvalidProbability := by
  intro arg s hidle hinvalid
  have htest : invalidProbability arg = true := by
    rw [invalidProbability, signBit, Bool.or_eq_true, Bool.or_eq_true, or_assoc]
    exact hinvalid
  have haccepted : { s.accept .create with valid := false }.phase = .idle := hidle
  rw [exec_create_of_invalid hidle htest]
  unfold State.raiseInvalidProbability
  rw [State.respond_of_idle haccepted,
    show rspWord stInvalidProbability 0#32 = 0x100000000#34 by decide]
  rfl

/-- Settles O4: acceptance in `IDLE`, waiting commands in `RUN`, where the step writes neither `OP` nor the port. -/
theorem commandAcceptance : Obligations.CommandAcceptance := by
  refine ⟨fun s w ws hreset hidle hport => ?_, fun s arg hrun => ⟨exec_create_of_run hrun arg, exec_next_of_run hrun⟩,
    fun s t hreset hrun h => ?_⟩
  · have hstep := step_of_command hreset hidle hport
    obtain ⟨t, ht⟩ := exec_command_answers w s
    obtain ⟨hcmd, hop, -⟩ := exec_command_effect hidle ht
    exact ⟨hstep, t, hstep.trans ht, hcmd.trans (congrArg List.tail hport), hop⟩
  · rw [step_of_run hreset hrun] at h
    obtain ⟨hcmd, hop, -⟩ := exec_loop_effect hrun h
    exact ⟨hcmd, hop⟩

/-- Settles O5: acceptance and the error response. -/
theorem nextRefusesWithoutGenerator : Obligations.NextRefusesWithoutGenerator := by
  intro s hidle hvalid
  have haccepted : (s.accept .next).phase = .idle := hidle
  rw [exec_next_of_not_valid hidle hvalid]
  unfold State.raiseNotConstructed
  rw [State.respond_of_idle haccepted,
    show rspWord stNotConstructed 0#32 = 0x200000000#34 by decide]
  rfl

/-- Settles O6: acceptance and the response with the constant word. -/
theorem nextDegenerateWords : Obligations.NextDegenerateWords := by
  intro s hidle hvalid
  have haccepted : (s.accept .next).phase = .idle := hidle
  refine ⟨fun hzero => ?_, fun hone => ?_⟩
  · rw [exec_next_of_zero hidle hvalid hzero, State.respond_of_idle haccepted, rspWord_stOk_zero]
    rfl
  · rw [exec_next_of_one hidle hvalid hone, State.respond_of_idle haccepted,
      show rspWord stOk 0xFFFFFFFF#32 = 0x0FFFFFFFF#34 by decide]
    rfl

/-- Settles O24: what is decoded at the port or from the selector is what the sequencer selects. -/
theorem stepRunsSelectedInstruction : Obligations.StepRunsSelectedInstruction := by
  refine ⟨fun s i w ws hreset hidle hport hdecode => ?_, fun s i hreset hrun hdecode => ?_,
    fun s => step_of_empty_port⟩
  · rw [decode_command] at hdecode
    cases hdecode
    exact step_of_command hreset hidle hport
  · rw [decode_selector] at hdecode
    cases hdecode
    exact step_of_run hreset hrun

/-- Settles O25: the step is the reset event. -/
theorem resetEventAbandonsEverything : Obligations.ResetEventAbandonsEverything := fun _ hreset =>
  ⟨_, step_of_reset hreset, rfl, rfl, rfl, rfl, rfl, rfl, rfl, rfl⟩

/-- Settles O19: the take alone, or the refill and the take; the examples are instances of the two. -/
theorem nextBitTakesLowBit : Obligations.NextBitTakesLowBit := by
  refine ⟨fun s hbuffered => exec_nextBit_of_takeFreshBit (State.takeFreshBit_buffered hbuffered),
    fun s hempty hanswers => exec_nextBit_of_takeFreshBit (State.takeFreshBit_empty hempty hanswers),
    fun s hbits hcnt => ?_, fun s ws hempty hanswers hport => ?_⟩
  · have hbuffered : s.rsvCnt ≠ 0#7 := by rw [hcnt]; decide
    rw [exec_nextBit_of_takeFreshBit (State.takeFreshBit_buffered hbuffered), State.takeBit, hbits, hcnt]
    rfl
  · rw [exec_nextBit_of_takeFreshBit (State.takeFreshBit_empty hempty hanswers), State.upcomingWord_zero hport, hport]
    rfl

/-- Settles O20: the refill of an answering source; the example has its word at the port. -/
theorem refillLoadsWord : Obligations.RefillLoadsWord := by
  refine ⟨fun s => exec_refill_of_answering, fun s ws hanswers hport => ?_⟩
  rw [exec_refill_of_answering hanswers, State.upcomingWord_zero hport, hport]
  rfl

/-- Settles O23: a stop is an error of the reservoir, and the reservoir has one error. -/
theorem onlySilentSourceStops : Obligations.OnlySilentSourceStops := by
  refine ⟨fun i s f => ?_, exec_ne_refused⟩
  by_cases hi : i ≠ .refill ∧ i ≠ .nextBit ∧ i ≠ .narrow
  · obtain ⟨t, ht⟩ := exec_answers hi s
    simp [ht, hi]
  · obtain rfl | rfl | rfl := draws_of_not_answers hi
    · simp only [exec_refill, toResult_eq_fault_iff, State.refillReservoir_eq_error_iff, true_or, and_true]
    · simp [exec_nextBit, toResult_eq_fault_iff, State.takeFreshBit_eq_error_iff]
    · simp [exec, execNarrow_eq_fault_iff, State.takeFreshBit_eq_error_iff]

end Sys2Proof
end

section
/-! R27 on finite operands: rounding places a number between the midpoints to its neighbours, so its result is the nearest
pattern. -/

set_option deprecated.oldSectionVars true

namespace Sys2Proof.Machine

open Safety

/-! ### The place of a rounded number -/

/-- The number rounds to the pattern `n`: it lies between the midpoints of `n` with the patterns below and above, and on one
of them only if `n` is even. -/
def RoundsTo (num den n : Nat) : Prop :=
  (∀ j, n < j → 2 * num ≤ (magOf n + magOf j) * den) ∧ (∀ j, j < n → (magOf n + magOf j) * den ≤ 2 * num) ∧
    ∀ j, j ≠ n → (magOf n + magOf j) * den = 2 * num → n % 2 = 0

theorem magOf_mul_lt {i j den : Nat} (hd : 0 < den) (h : i < j) : magOf i * den < magOf j * den :=
  Nat.mul_lt_mul_of_pos_right (magOf_strictMono h) hd

theorem magOf_mul_le {i j : Nat} (den : Nat) (h : i ≤ j) : magOf i * den ≤ magOf j * den :=
  Nat.mul_le_mul_right _ (magOf_strictMono.monotone h)

/-- Up to half a step above a pattern a number rounds down to it. -/
theorem roundsTo_of_below_midpoint {num den n r : Nat} (hd : 0 < den) (hnum : num = magOf n * den + r)
    (hnear : 2 * num ≤ magOf n * den + magOf (n + 1) * den)
    (htie : 2 * num = magOf n * den + magOf (n + 1) * den → n % 2 = 0) : RoundsTo num den n := by
  have habove {j : Nat} (h : n < j) : magOf (n + 1) * den ≤ magOf j * den := magOf_mul_le den h
  refine ⟨fun j h => ?_, fun j h => ?_, fun j hne heq => ?_⟩
  · rw [add_mul]
    exact hnear.trans (Nat.add_le_add_left (habove h) _)
  · rw [add_mul, two_mul, hnum]
    exact Nat.add_le_add (Nat.le_add_right _ _) ((magOf_mul_lt hd h).le.trans (Nat.le_add_right _ _))
  · rw [add_mul] at heq
    obtain hlt | hgt := Nat.lt_or_gt_of_ne hne
    · have := magOf_mul_lt hd hlt
      omega
    · exact htie (hnear.antisymm (heq ▸ Nat.add_le_add_left (habove hgt) _))

/-- From half a step on it rounds up to the next. -/
theorem roundsTo_of_above_midpoint {num den n : Nat} (hd : 0 < den) (hlt : num < magOf (n + 1) * den)
    (hnear : magOf n * den + magOf (n + 1) * den ≤ 2 * num)
    (htie : 2 * num = magOf n * den + magOf (n + 1) * den → (n + 1) % 2 = 0) : RoundsTo num den (n + 1) := by
  have hbelow {j : Nat} (h : j < n + 1) : magOf j * den ≤ magOf n * den := magOf_mul_le den (Nat.le_of_lt_succ h)
  refine ⟨fun j h => ?_, fun j h => ?_, fun j hne heq => ?_⟩
  · rw [add_mul, two_mul]
    exact Nat.add_le_add hlt.le (hlt.le.trans (magOf_mul_lt hd h).le)
  · rw [add_mul, add_comm]
    exact (Nat.add_le_add_right (hbelow h) _).trans hnear
  · rw [add_mul, add_comm] at heq
    obtain hj | hj := Nat.lt_or_gt_of_ne hne
    · exact htie (hnear.antisymm' (heq ▸ Nat.add_le_add_right (hbelow hj) _))
    · have := magOf_mul_lt hd hj
      omega

/-- One more in the significand is one more weight, also where the significand overflows into the exponent. -/
theorem magOf_pack_succ {k m : Nat} (hk : k = 0 ∨ 2 ^ 52 ≤ m) (hm : m < 2 ^ 53) :
    magOf (k * 2 ^ 52 + m + 1) = magOf (k * 2 ^ 52 + m) + 2 ^ k := by
  rw [Nat.add_assoc, magOf_pack hk hm.le, magOf_pack (hk.imp_right Nat.le_succ_of_le) hm, Nat.add_one_mul]

/-- Where rounding puts a number, before what is too large becomes `+infinity`. -/
theorem roundUnits_unclipped (num : Nat) {den : Nat} (hd : 0 < den) :
    ∃ n, roundUnits num den = min n infMagnitude ∧ RoundsTo num den n := by
  have hparity (k m : Nat) : (k * 2 ^ 52 + m) % 2 = m % 2 := by
    rw [Nat.add_mod, Nat.mul_mod, show 2 ^ 52 % 2 = 0 from rfl, mul_zero, Nat.zero_mod, zero_add, Nat.mod_mod]
  obtain ⟨k, m, r, m', hround, hk, hm, hnum, hr, hcase⟩ := roundUnits_spec num hd
  have hat : magOf (k * 2 ^ 52 + m) * den = den * 2 ^ k * m := by
    rw [magOf_pack hk hm.le, mul_comm, ← mul_assoc, mul_right_comm]
  have hnext : magOf (k * 2 ^ 52 + m + 1) * den = magOf (k * 2 ^ 52 + m) * den + den * 2 ^ k := by
    rw [magOf_pack_succ hk hm, add_mul, mul_comm (2 ^ k) den]
  rw [← hat] at hnum
  have htwice : 2 * num + den * 2 ^ k = magOf (k * 2 ^ 52 + m) * den + magOf (k * 2 ^ 52 + m + 1) * den + 2 * r := by
    rw [hnext, hnum, mul_add, two_mul, ← add_assoc, add_right_comm]
  refine ⟨k * 2 ^ 52 + m', hround, ?_⟩
  obtain ⟨rfl, hnear, htie⟩ | ⟨rfl, hnear, htie⟩ := hcase
  · exact roundsTo_of_below_midpoint hd hnum
      (Nat.le_of_add_le_add_right (htwice.trans_le (Nat.add_le_add_left hnear _)))
      fun h => (hparity k _).trans (htie (Nat.add_left_cancel (h ▸ htwice)).symm)
  · rw [← Nat.add_assoc]
    exact roundsTo_of_above_midpoint hd (hnum.trans_lt ((Nat.add_lt_add_left hr _).trans_eq hnext.symm))
      (Nat.le_of_add_le_add_right ((Nat.add_le_add_left hnear _).trans_eq htwice.symm)) fun h =>
      Nat.succ_mod_two_eq_zero_iff.mpr ((hparity k m).trans (htie (Nat.add_left_cancel (h ▸ htwice)).symm))

/-- The overflow threshold is the midpoint of the largest finite pattern and the next weight of significand. -/
theorem twiceOverflow_eq_midpoint : twiceOverflow = magOf (infMagnitude - 1) + magOf infMagnitude := by
  have hlast : infMagnitude - 1 = 2045 * 2 ^ 52 + (2 ^ 53 - 1) := by decide
  have hinf : infMagnitude = 2045 * 2 ^ 52 + 2 ^ 53 := by decide
  rw [hlast, hinf, magOf_pack (by omega) (by omega), magOf_pack (by omega) (by omega), ← add_mul,
    twiceOverflow_eq (e := 2045) rfl, show 2 ^ 53 - 1 + 2 ^ 53 = 2 ^ 54 - 1 by norm_num]

/-- What rounds to a pattern up to an odd one lies below the midpoint of that and the next. -/
theorem RoundsTo.lt_midpoint {num den n last : Nat} (hd : 0 < den) (h : RoundsTo num den n) (hn : n ≤ last)
    (hodd : last % 2 = 1) : 2 * num < (magOf last + magOf (last + 1)) * den := by
  obtain ⟨habove, -, htie⟩ := h
  have hle := habove (last + 1) (Nat.lt_succ_of_le hn)
  obtain rfl | hlt := hn.eq_or_lt
  · refine lt_of_le_of_ne hle fun heq => ?_
    rw [htie _ (Nat.succ_ne_self n) heq.symm] at hodd
    exact absurd hodd (by decide)
  · exact hle.trans_lt (Nat.mul_lt_mul_of_pos_right (Nat.add_lt_add_right (magOf_strictMono hlt) _) hd)

/-- A finite result has its place, below the overflow threshold. -/
theorem roundUnits_of_lt_inf {num den : Nat} (hd : 0 < den) (h : roundUnits num den < infMagnitude) :
    2 * num < twiceOverflow * den ∧ RoundsTo num den (roundUnits num den) := by
  obtain ⟨n, hround, hplace⟩ := roundUnits_unclipped num hd
  have hn : roundUnits num den = n :=
    hround.trans (min_eq_left ((min_lt_iff.mp (hround ▸ h)).resolve_right (lt_irrefl _)).le)
  rw [hn] at h ⊢
  have hmid := hplace.lt_midpoint hd (Nat.le_sub_one_of_lt h) (by decide)
  rw [show infMagnitude - 1 + 1 = infMagnitude by decide, ← twiceOverflow_eq_midpoint] at hmid
  exact ⟨hmid, hplace⟩

/-- An infinite result reaches the overflow threshold. -/
theorem overflow_le_of_roundUnits_eq_inf {num den : Nat} (hd : 0 < den) (h : roundUnits num den = infMagnitude) :
    twiceOverflow * den ≤ 2 * num := by
  obtain ⟨n, hround, -, hbelow, -⟩ := roundUnits_unclipped num hd
  have hn : infMagnitude ≤ n := min_eq_right_iff.mp (hround.symm.trans h)
  rw [twiceOverflow_eq_midpoint, add_comm]
  exact (Nat.mul_le_mul_right _ (Nat.add_le_add_right (magOf_strictMono.monotone hn) _)).trans
    (hbelow _ (lt_of_lt_of_le (by decide) hn))

/-- R27, overflow: the result is an infinity exactly from the threshold on. -/
theorem roundUnits_eq_inf_iff {num den : Nat} (hd : 0 < den) :
    roundUnits num den = infMagnitude ↔ twiceOverflow * den ≤ 2 * num := by
  refine ⟨overflow_le_of_roundUnits_eq_inf hd, fun hle => ?_⟩
  by_contra hne
  exact hle.not_gt (roundUnits_of_lt_inf hd (lt_of_le_of_ne (roundUnits_le_inf num den) hne)).1

/-- Of two numbers the smaller is the nearer one to what lies up to their midpoint. -/
theorem natAbs_sub_le_of_le {a b c : Nat} (hab : a ≤ b) (hmid : 2 * c ≤ a + b) :
    ((a : Int) - c).natAbs ≤ ((b : Int) - c).natAbs := by
  have hgap : (c : Int) - a ≤ b - c := sub_le_sub_iff.mpr (by rw [← two_mul, add_comm (b : Int)]; exact_mod_cast hmid)
  rw [← Int.ofNat_le, Int.natCast_natAbs, Int.natCast_natAbs]
  exact (abs_le'.mpr ⟨sub_le_sub_right (Int.ofNat_le.mpr hab) _, (neg_sub (a : Int) c).trans_le hgap⟩).trans
    (le_abs_self _)

/-- And the greater to what lies from their midpoint on. -/
theorem natAbs_sub_le_of_ge {a b c : Nat} (hba : b ≤ a) (hmid : a + b ≤ 2 * c) :
    ((a : Int) - c).natAbs ≤ ((b : Int) - c).natAbs := by
  have hgap : (a : Int) - c ≤ c - b := sub_le_sub_iff.mpr (by rw [← two_mul]; exact_mod_cast hmid)
  rw [← Int.ofNat_le, Int.natCast_natAbs, Int.natCast_natAbs, abs_sub_comm (b : Int)]
  exact (abs_le'.mpr ⟨hgap, (neg_sub (a : Int) c).trans_le (sub_le_sub_left (Int.ofNat_le.mpr hba) _)⟩).trans
    (le_abs_self _)

/-- Equally near to two numbers is only their midpoint. -/
theorem add_eq_of_natAbs_sub_eq {a b c : Nat} (h : ((a : Int) - c).natAbs = ((b : Int) - c).natAbs) (hne : b ≠ a) :
    a + b = 2 * c := by
  obtain heq | heq := Int.natAbs_eq_natAbs_iff.mp h
  · exact absurd (Int.ofNat.inj (sub_left_injective heq)).symm hne
  · rw [neg_sub, sub_eq_sub_iff_add_eq_add, ← two_mul] at heq
    exact_mod_cast heq

/-- `n` is nearest to `num / den` among all magnitudes, and an equally near other one makes it even. -/
def NearestUnits (num den n : Nat) : Prop :=
  ∀ j, ((magOf n * den : Nat) - num : Int).natAbs ≤ ((magOf j * den : Nat) - num : Int).natAbs ∧
    (((magOf n * den : Nat) - num : Int).natAbs = ((magOf j * den : Nat) - num : Int).natAbs → j ≠ n → n % 2 = 0)

theorem RoundsTo.nearest {num den n : Nat} (hd : 0 < den) (h : RoundsTo num den n) : NearestUnits num den n := by
  intro j
  obtain ⟨habove, hbelow, htie⟩ := h
  refine ⟨?_, fun heq hne => htie j hne ?_⟩
  · obtain hlt | rfl | hgt := Nat.lt_trichotomy j n
    · exact natAbs_sub_le_of_ge (magOf_mul_lt hd hlt).le (add_mul (magOf n) _ den ▸ hbelow j hlt)
    · exact le_rfl
    · exact natAbs_sub_le_of_le (magOf_mul_lt hd hgt).le (add_mul (magOf n) _ den ▸ habove j hgt)
  · rw [add_mul]
    exact add_eq_of_natAbs_sub_eq heq fun he =>
      hne (magOf_strictMono.injective (Nat.eq_of_mul_eq_mul_right hd he))

/-- A finite result is the nearest magnitude. -/
theorem roundUnits_nearest {num den : Nat} (hd : 0 < den) (h : roundUnits num den < infMagnitude) :
    NearestUnits num den (roundUnits num den) :=
  (roundUnits_of_lt_inf hd h).2.nearest hd

/-! ### Rounding with a sign -/

@[simp] theorem natAbs_signedUnits (neg : Bool) (n : Nat) : (signedUnits neg n).natAbs = n := by
  cases neg <;> simp [signedUnits]

/-- A number and its rounding have one sign, so their distance is that of the magnitudes. -/
theorem natAbs_signedUnits_sub (neg : Bool) (u den num : Nat) :
    (signedUnits neg u * den - signedUnits neg num).natAbs = ((u * den : Nat) - num : Int).natAbs := by
  rw [Nat.cast_mul]
  cases neg with
  | false => rfl
  | true =>
    show (-(u : Int) * den - -(num : Int)).natAbs = _
    rw [neg_mul, ← neg_sub', Int.natAbs_neg]

/-- From a value of the other sign the distance is the sum of the magnitudes. -/
theorem natAbs_neg_signedUnits_sub (neg : Bool) (u den num : Nat) :
    (-signedUnits neg u * den - signedUnits neg num).natAbs = u * den + num := by
  have hfar : ((u : Int) * den + num).natAbs = u * den + num := Int.natAbs_natCast (u * den + num)
  cases neg with
  | false =>
    show (-(u : Int) * den - num).natAbs = _
    rw [neg_mul, neg_sub_left, add_comm, Int.natAbs_neg, hfar]
  | true =>
    show (- -(u : Int) * den - -(num : Int)).natAbs = _
    rw [neg_neg, sub_neg_eq_add, hfar]

theorem finiteUnits_eq_signed {c : Word} {v : Int} (h : finiteUnits c = some v) (neg : Bool) :
    ∃ j, v = signedUnits neg (magOf j) ∨ v = -signedUnits neg (magOf j) := by
  obtain ⟨j, hj⟩ := finiteUnits_cases h
  refine ⟨j, ?_⟩
  cases neg
  · exact hj
  · simpa [signedUnits] using hj.symm

theorem roundUnits_zero {den : Nat} (hd : 0 < den) : roundUnits 0 den = 0 :=
  Nat.le_zero.mp (roundUnits_le hd (by simp))

theorem packSign_even {neg : Bool} {n : Nat} (hn : n < 2 ^ 63) (heven : n % 2 = 0) :
    (packSign neg n).getLsbD 0 = false := by
  rw [BitVec.getLsbD, Nat.testBit_zero, packSign_toNat neg hn, decide_eq_false_iff_not]
  split <;> omega

theorem natAbs_sub_le_add (a c : Nat) : ((a : Int) - c).natAbs ≤ a + c := by omega

theorem natAbs_sub_lt_add {a c : Nat} (ha : 0 < a) (hc : 0 < c) : ((a : Int) - c).natAbs < a + c := by omega

/-- R27: a finite rounding against a value of the other sign, which is never nearer and equally near only at zero. -/
theorem roundUnits_nearer_than_other_sign {num den : Nat} (hd : 0 < den) (h : roundUnits num den < infMagnitude) (j : Nat) :
    ((magOf (roundUnits num den) * den : Nat) - num : Int).natAbs ≤ magOf j * den + num ∧
    (((magOf (roundUnits num den) * den : Nat) - num : Int).natAbs = magOf j * den + num →
      roundUnits num den % 2 = 0) := by
  obtain ⟨hnear, htie⟩ := roundUnits_nearest hd h j
  have hfar := natAbs_sub_le_add (magOf j * den) num
  refine ⟨hnear.trans hfar, fun he => ?_⟩
  by_cases hj : j = roundUnits num den
  · rw [← hj] at he ⊢
    obtain rfl | hpos := Nat.eq_zero_or_pos j
    · rfl
    · have hnum : 0 < num := Nat.pos_of_ne_zero fun h0 => hpos.ne' (by rw [hj, h0, roundUnits_zero hd])
      have hmag : 0 < magOf j := magOf_strictMono hpos
      exact absurd he (natAbs_sub_lt_add (Nat.mul_pos hmag hd) hnum).ne
  · exact htie (le_antisymm hnear (hfar.trans_eq he.symm)) hj

/-- R27: the rounding of a signed number is the nearest pattern to it, ties to even, overflow to its infinity. -/
theorem roundTo_roundedToNearest (neg : Bool) (num : Nat) {den : Nat} (hd : 0 < den) :
    RoundedToNearest (roundTo neg num den) (signedUnits neg num) den := by
  have hinf : infMagnitude < 2 ^ 63 := by decide
  obtain hlt | heq := (roundUnits_le_inf num den).lt_or_eq
  · have heven (h : roundUnits num den % 2 = 0) : (roundTo neg num den).getLsbD 0 = false :=
      packSign_even (hlt.trans hinf) h
    refine roundedToNearest_of_fin (valueOf_packSign neg hlt) ?_ fun c v hc => ?_
    · rw [natAbs_signedUnits]
      exact (roundUnits_of_lt_inf hd hlt).1
    · rw [natAbs_signedUnits_sub]
      obtain ⟨j, rfl | rfl⟩ := finiteUnits_eq_signed hc neg
      · obtain ⟨hnear, htie⟩ := roundUnits_nearest hd hlt j
        rw [natAbs_signedUnits_sub]
        exact ⟨hnear, fun h hne => heven (htie h fun hj => hne (by rw [hj]))⟩
      · obtain ⟨hnear, htie⟩ := roundUnits_nearer_than_other_sign hd hlt j
        rw [natAbs_neg_signedUnits_sub]
        exact ⟨hnear, fun h _ => heven (htie h)⟩
  · have hover := overflow_le_of_roundUnits_eq_inf hd heq
    have hpos : 0 < twiceOverflow * den := Nat.mul_pos (by rw [twiceOverflow_eq (e := 2045) rfl]; positivity) hd
    refine roundedToNearest_of_inf (neg := neg) ?_ (by rwa [natAbs_signedUnits]) ?_
    · rw [roundTo, heq]; exact valueOf_infinity neg
    · cases neg
      · simp [signedUnits]
      · simp only [signedUnits, if_true]
        exact (decide_eq_true (by omega)).symm

/-! ### The exact result of an operation, as the signed number it rounds -/

/-- A number with the sign it has. -/
theorem signedUnits_natAbs {neg : Bool} {v : Int} (h : v ≠ 0 → neg = decide (v < 0)) :
    signedUnits neg v.natAbs = v := by
  by_cases h0 : v = 0
  · subst h0; cases neg <;> rfl
  · rw [h h0, signedUnits]
    split_ifs with hneg <;> simp at hneg <;> omega

theorem signedUnits_xor_mul (s t : Bool) (m n : Nat) :
    signedUnits (s ^^ t) (m * n) = signedUnits s m * signedUnits t n := by
  cases s <;> cases t <;> simp [signedUnits]

end Sys2Proof.Machine

namespace Sys2Proof

open Machine Safety

/-- Settles O41: each operation rounds once a number that, with its sign, is the exact result. -/
theorem floatCorrectlyRounded : Obligations.FloatCorrectlyRounded := by
  intro a b s t m n ha hb
  refine ⟨?_, ?_, ?_, fun hn => ?_⟩
  · obtain ⟨neg, hround, hneg⟩ := fadd_fin ha hb
    have hsum := roundTo_roundedToNearest neg (signedUnits s m + signedUnits t n).natAbs Nat.one_pos
    rwa [signedUnits_natAbs hneg, ← hround] at hsum
  · obtain ⟨neg, hround, hneg⟩ := fsub_fin ha hb
    have hdiff := roundTo_roundedToNearest neg (signedUnits s m - signedUnits t n).natAbs Nat.one_pos
    rwa [signedUnits_natAbs hneg, ← hround] at hdiff
  · rw [fmul_fin ha hb, ← signedUnits_xor_mul]
    exact roundTo_roundedToNearest _ _ unitsInOne_pos
  · have hquot := signedUnits_xor_mul (s ^^ t) false m unitsInOne
    rw [Bool.xor_false] at hquot
    rw [fdiv_fin ha hb hn, show (unitsInOne : Int) = signedUnits false unitsInOne from rfl, ← hquot]
    exact roundTo_roundedToNearest _ _ (Nat.pos_of_ne_zero hn)

end Sys2Proof
end

section
/-! What every step keeps: the accounting of entropy (R72), commands and responses (R34), the owner of `P` (R58), and the
invariant of the generator, of the word in progress and of the responses. -/

namespace Sys2Proof.Machine

open Safety

/-! ### Accounting -/

-- This one waits until the tests are checked; the proofs after it are elaborated on the threads that this frees.
set_option Elab.async false in
/-- R47, R48: a command word with bit 64 clear is its operand as a number. -/
theorem decodeCommand_eq_create {w : CmdWord} {arg : Word} (h : decodeCommand w = .create arg) :
    w.getLsbD 64 = false ∧ arg.toNat = w.toNat := by
  unfold decodeCommand at h
  split at h
  · cases h
  · next hbit =>
    cases h
    have hlt : ¬ 2 ^ 64 ≤ w.toNat := fun hle => hbit ((command_bit_iff w).mpr hle)
    refine ⟨by simpa using hbit, ?_⟩
    rw [BitVec.extractLsb'_toNat, Nat.shiftRight_zero, Nat.mod_eq_of_lt (by omega)]

theorem takeFreshBit_consumed {s u : State} (h : s.takeFreshBit = .ok u) : Consumed 1 s u.halve :=
  (State.takeFreshBit_ok h).2

theorem takeFreshBit_draws_on_empty {s u : State} (h : s.takeFreshBit = .ok u) (hdraw : u.entIdx ≠ s.entIdx) :
    s.rsvCnt = 0#7 := by
  obtain ⟨-, hs⟩ | ⟨hempty, -, -⟩ | ⟨hempty, -, -⟩ := s.takeFreshBit_cases
  · rw [hs] at h; cases h; exact absurd rfl hdraw
  · exact hempty
  · exact hempty

theorem inProgress_of_idle {s : State} (hidle : s.phase = .idle) : inProgress s = 0 := by
  unfold inProgress
  rw [hidle]

theorem inProgress_of_run {s : State} (hrun : s.phase = .run) : inProgress s = 1 := by
  unfold inProgress
  rw [hrun]

/-- The entropy position moves only by a `NEXT_BIT` or a `REFILL`, and the reservoir only by these and by `CREATE`. -/
theorem exec_keeps_entropy {i : Instr} {s t : State} (hi : ¬ (i = .refill ∨ i = .nextBit ∨ i = .narrow))
    (h : exec i s = .next t) :
    (t.entIdx = s.entIdx ∧ t.entPort = s.entPort) ∧ ((∀ arg, i ≠ .create arg) → NoEntropyUsed s t) := by
  obtain ⟨-, -, hreservoir, -, -, -, -, -, -, hentropy, -⟩ := registerWriters i s t h
  obtain ⟨hidx, hport⟩ := not_or.mp (mt hentropy hi)
  refine ⟨⟨not_not.mp hidx, not_not.mp hport⟩, fun hcreate => ?_⟩
  obtain ⟨hbits, hcnt⟩ := not_or.mp fun hchanged => hi <| (hreservoir hchanged).imp_right fun hi' =>
    hi'.imp_right fun hi'' => hi''.resolve_right fun ⟨arg, harg⟩ => hcreate arg harg
  exact ⟨not_not.mp hbits, not_not.mp hcnt, not_not.mp hidx, not_not.mp hport⟩

end Sys2Proof.Machine

namespace Sys2Proof

open Machine Safety

/-- Settles O22: a `NARROW` is a `NEXT_BIT` and a halving; every other selected instruction leaves the entropy alone. -/
theorem entropyAccounting : Obligations.EntropyAccounting := by
  intro s t hreset h
  obtain ⟨hnone, rfl⟩ | ⟨i, hsel, hexec, hrefill, hnextBit⟩ := step_runs_selected hreset h
  · rw [hnone]
    exact ⟨fun heq => (Option.some_ne_none _ heq.symm).elim, fun _ => ⟨rfl, rfl⟩, fun _ _ => ⟨rfl, rfl, rfl, rfl⟩,
      fun hdraw => absurd rfl hdraw⟩
  · rw [hsel]
    by_cases hi : i = .narrow
    · subst hi
      obtain ⟨u, hu, rfl⟩ := execNarrow_cases hexec
      exact ⟨fun _ => takeFreshBit_consumed hu, fun hne => absurd rfl hne, fun hne => absurd rfl hne,
        fun hdraw => takeFreshBit_draws_on_empty hu hdraw⟩
    · obtain ⟨hentropy, hreservoir⟩ := exec_keeps_entropy (fun hi' => hi'.elim hrefill (·.elim hnextBit hi)) hexec
      exact ⟨fun heq => absurd (Option.some.inj heq) hi, fun _ => hentropy,
        fun _ hcreate => hreservoir fun arg heq => hcreate arg (congrArg some heq), fun hdraw => absurd hentropy.1 hdraw⟩

/-- Settles O28: a command leaves the port and becomes a response or the command in progress, `WORD_DONE` turns the one in
progress into a response, and the other micro-operations touch none of the three. -/
theorem oneResponsePerCommand : Obligations.OneResponsePerCommand := by
  intro s t hreset h
  obtain ⟨hr, -⟩ | ⟨-, -, -, hs⟩ | ⟨w, ws, -, hidle, hport, hs⟩ | ⟨-, hrun, hs⟩ := step_cases s
  · rw [hreset] at hr; cases hr
  · cases hs.symm.trans h
    exact ⟨rfl, .inl rfl⟩
  · obtain ⟨hcmd, -, ⟨r, hrsp, hphase⟩ | ⟨hrsp, hphase⟩⟩ := exec_command_effect hidle (hs.symm.trans h)
    · rw [inProgress_of_idle hidle, inProgress_of_idle hphase, add_zero, add_zero, hcmd, hrsp, hport, List.length_append]
      exact ⟨(Nat.add_assoc _ _ _).trans (congrArg _ (Nat.add_comm 1 ws.length)), .inr ⟨r, rfl, hphase⟩⟩
    · rw [inProgress_of_idle hidle, inProgress_of_run hphase, hcmd, hrsp, hport]
      exact ⟨rfl, .inl rfl⟩
  · obtain ⟨hcmd, -, ⟨r, hrsp, hphase⟩ | ⟨hrsp, hphase⟩⟩ := exec_loop_effect hrun (hs.symm.trans h)
    · rw [inProgress_of_run hrun, inProgress_of_idle hphase, hcmd, hrsp, List.length_append]
      exact ⟨Nat.add_right_comm _ 1 _, .inr ⟨r, rfl, hphase⟩⟩
    · rw [inProgress_of_run hrun, inProgress_of_run hphase, hcmd, hrsp]
      exact ⟨rfl, .inl rfl⟩

/-- Settles O30: only a `CREATE` writes `P`, only an idle block runs one, and only with a valid operand does it write. -/
theorem onlySuccessfulCreateChangesP : Obligations.OnlySuccessfulCreateChangesP := by
  intro s t hreset h hchanged
  obtain ⟨hr, -⟩ | ⟨-, -, -, hs⟩ | ⟨w, ws, -, hidle, hport, hs⟩ | ⟨-, -, hs⟩ := step_cases s
  · rw [hreset] at hr; cases hr
  · cases hs.symm.trans h
    exact absurd rfl hchanged
  · obtain ⟨arg, hdecode⟩ := (registerWriters _ s t (hs.symm.trans h)).1 (.inl hchanged)
    obtain ⟨hop, harg⟩ := decodeCommand_eq_create hdecode
    refine ⟨w, ws, hidle, hport, hop, ?_⟩
    rw [hs, hdecode] at h
    rw [← harg]
    obtain ⟨-, rfl⟩ | ⟨-, -, rfl⟩ | ⟨-, hvalid, rfl⟩ := execCreate_cases h
    · exact absurd rfl hchanged
    · exact absurd rfl hchanged
    · exact ⟨invalidProbability_eq_false hvalid, rfl, rfl⟩
  · obtain ⟨arg, hdecode⟩ := (registerWriters _ s t (hs.symm.trans h)).1 (.inl hchanged)
    obtain hi | hi | hi | hi := decodeSel_cases (selector s) <;> exact absurd (hi.symm.trans hdecode) Instr.noConfusion

end Sys2Proof

namespace Sys2Proof.Safety

open Machine

/-! ### The invariant -/

theorem statusOf_rspWord (status : BitVec 2) (data : BitVec 32) : statusOf (rspWord status data) = status :=
  BitVec.extractLsb'_append_eq_left

theorem dataOf_rspWord (status : BitVec 2) (data : BitVec 32) : dataOf (rspWord status data) = data :=
  BitVec.extractLsb'_append_eq_right

/-- R44, R45: a response with a status that is sent, and with data only under `ST_OK`, keeps the responses legal. -/
theorem ResponsesLegal.respond {s : State} (h : ResponsesLegal s) {status : BitVec 2} {data : BitVec 32}
    (hstatus : status ≠ 0b11#2) (hdata : status ≠ stOk → data = 0#32) : ResponsesLegal (s.respond status data) := by
  intro r hr
  obtain hr | hr := List.mem_append.mp hr
  · exact h r hr
  · obtain rfl := List.mem_singleton.mp hr
    rw [statusOf_rspWord, dataOf_rspWord]
    exact ⟨hstatus, hdata⟩

theorem openProbability_of_nondegenerate {p : Word} (hle : p.toNat ≤ 0x3FF0000000000000) (hzero : feq p fZero = false)
    (hone : feq p fOne = false) : openProbability p := by
  have hself {q : Word} {n : Nat} (h : valueOf q = .fin false n) : feq q q = true := by
    rw [feq_fin h h, decide_eq_true rfl]
  have hne0 : p.toNat ≠ 0 := fun h => by
    rw [show p = fZero from BitVec.eq_of_toNat_eq h, hself valueOf_fZero] at hzero
    cases hzero
  have hne1 : p.toNat ≠ 0x3FF0000000000000 := fun h => by
    rw [show p = fOne from BitVec.eq_of_toNat_eq h, hself valueOf_fOne] at hone
    cases hone
  exact ⟨Nat.pos_of_ne_zero hne0, lt_of_le_of_ne hle hne1⟩

/-- R56: `CREATE` establishes the generator's part. -/
theorem generatorInv_construct (s : State) {arg : Word} (hvalid : invalidProbability arg = false) :
    GeneratorInv (s.construct arg) where
  probability := invalidProbability_eq_false hvalid
  count := by simp
  buffer := by simp
  degenerate _ := ⟨rfl, rfl, rfl⟩

/-- R13, R76: a buffered bit taken leaves one fewer, and the buffer zero above them. -/
theorem generatorInv_takeBit {s : State} (h : GeneratorInv s) (hopen : openProbability s.p) (hbuffered : s.rsvCnt ≠ 0#7) :
    GeneratorInv s.takeBit := by
  have hbuffer := h.buffer
  refine ⟨h.probability, ?_, ?_, fun hno => absurd hopen hno⟩
  · rw [State.takeBit_rsvCnt_toNat hbuffered]
    exact (Nat.sub_le _ _).trans h.count
  · rw [← Nat.sub_add_cancel (one_le_rsvCnt hbuffered), pow_succ'] at hbuffer
    rw [State.takeBit_rsvCnt_toNat hbuffered, State.takeBit_rsvBits, BitVec.toNat_ushiftRight, Nat.shiftRight_eq_div_pow]
    exact Nat.div_lt_of_lt_mul hbuffer

/-- R13, R76: a `NEXT_BIT` leaves at most 63 bits and the buffer zero above them. -/
theorem generatorInv_takeFreshBit {s u : State} (h : GeneratorInv s) (hopen : openProbability s.p)
    (hu : s.takeFreshBit = .ok u) : GeneratorInv u := by
  obtain ⟨hbuffered, hs⟩ | ⟨-, -, hs⟩ | ⟨-, -, hs⟩ := s.takeFreshBit_cases <;> cases hs.symm.trans hu
  · exact generatorInv_takeBit h hopen hbuffered
  · refine ⟨h.probability, le_rfl, ?_, fun hno => absurd hopen hno⟩
    show (s.upcomingWord 0 >>> 1).toNat < 2 ^ 63
    rw [BitVec.toNat_ushiftRight, Nat.shiftRight_eq_div_pow]
    exact Nat.div_lt_of_lt_mul ((s.upcomingWord 0).isLt.trans_eq (pow_succ' 2 63))

/-- R62: `start_word` establishes the word's part. -/
theorem wordInv_startWord {s : State} (hvalid : s.valid = true) (hop : s.op = .next) (hopen : openProbability s.p) :
    WordInv s.startWord where
  valid := hvalid
  command := hop
  probability := hopen
  emitted := by simp
  pRecip := rfl
  qRecip := rfl
  result := by simp

/-- R17: an emitted bit takes one more place of `RESULT`. -/
theorem appendBit_lt {r : BitVec 32} {n : Nat} (hr : r.toNat < 2 ^ n) (b : Bool) :
    ((r <<< 1) ||| (BitVec.ofBool b).setWidth 32).toNat < 2 ^ (n + 1) := by
  have hbit : ((BitVec.ofBool b).setWidth 32).toNat ≤ 1 := by cases b <;> decide
  rw [BitVec.toNat_or]
  refine Nat.or_lt_two_pow ?_ (hbit.trans_lt (Nat.one_lt_two_pow n.succ_ne_zero))
  rw [BitVec.toNat_shiftLeft, Nat.shiftLeft_eq, pow_one, pow_succ]
  exact (Nat.mod_le _ _).trans_lt (Nat.mul_lt_mul_of_pos_right hr two_pos)

theorem wordInv_emit {s : State} (h : WordInv s) (hunfinished : s.nemit.toNat ≠ 32) (b : Bool) (wlow whigh : Word) :
    WordInv (s.emit b wlow whigh) := by
  have hlt : s.nemit.toNat + 1 ≤ 32 := lt_of_le_of_ne h.emitted hunfinished
  have hcount : (s.nemit + 1#6).toNat = s.nemit.toNat + 1 := BitVec.toNat_add_of_lt (hlt.trans_lt (by decide))
  refine ⟨h.valid, h.command, h.probability, hcount.trans_le hlt, h.pRecip, h.qRecip, ?_⟩
  rw [State.emit_nemit, State.emit_result, hcount]
  exact appendBit_lt h.result b

theorem inv_resetEvent {s : State} (h : Inv s) : Inv s.resetEvent :=
  ⟨fun hvalid => (by cases hvalid), fun hrun => (by cases hrun), h.responses⟩

/-- The part of an idle state: only the generator and the responses matter. -/
theorem inv_of_idle {s : State} (hidle : s.phase = .idle) (hgen : s.valid = true → GeneratorInv s)
    (hresp : ResponsesLegal s) : Inv s :=
  ⟨hgen, fun hrun => (by rw [hidle] at hrun; cases hrun), hresp⟩

/-- R54, R61: a command that an idle block accepts keeps the invariant. -/
theorem exec_command_keeps_inv {s t : State} (hinv : Inv s) (hidle : s.phase = .idle) {w : CmdWord}
    (h : exec (decodeCommand w) s = .next t) : Inv t := by
  have hnotRun : s.phase ≠ .run := by rw [hidle]; decide
  obtain ⟨hgen, -, hresp⟩ := hinv
  have haccepted (o : Op) : ResponsesLegal (s.accept o) := hresp
  obtain ⟨arg, hw⟩ | hw := decodeCommand_cases w <;> rw [hw] at h
  · obtain ⟨hr, -⟩ | ⟨-, -, rfl⟩ | ⟨-, hvalid, rfl⟩ := execCreate_cases h
    · exact absurd hr hnotRun
    · exact inv_of_idle rfl (fun hv => by cases hv) (ResponsesLegal.respond hresp (by decide) fun _ => rfl)
    · have hcon := generatorInv_construct (s.accept .create) hvalid
      exact inv_of_idle rfl (fun _ => ⟨hcon.probability, hcon.count, hcon.buffer, hcon.degenerate⟩)
        (ResponsesLegal.respond hresp (by decide) fun hne => absurd rfl hne)
  · have hkept (st : BitVec 2) (data : BitVec 32) (hv : s.valid = true) : GeneratorInv ((s.accept .next).respond st data) :=
      ⟨(hgen hv).probability, (hgen hv).count, (hgen hv).buffer, (hgen hv).degenerate⟩
    obtain ⟨hr, -⟩ | ⟨-, -, rfl⟩ | ⟨-, -, -, rfl⟩ | ⟨-, -, -, -, rfl⟩ | ⟨-, hvalid, hzero, hone, rfl⟩ := execNext_cases h
    · exact absurd hr hnotRun
    · exact inv_of_idle rfl (hkept _ _) ((haccepted _).respond (by decide) fun _ => rfl)
    · exact inv_of_idle rfl (hkept _ _) ((haccepted _).respond (by decide) fun _ => rfl)
    · exact inv_of_idle rfl (hkept _ _) ((haccepted _).respond (by decide) fun hne => absurd rfl hne)
    · obtain ⟨hp, hcnt, hbuf, hdeg⟩ := hgen hvalid
      exact ⟨fun _ => ⟨hp, hcnt, hbuf, hdeg⟩,
        fun _ => wordInv_startWord hvalid rfl (openProbability_of_nondegenerate hp hzero hone), hresp⟩

/-- R65 to R67, R69: so does the micro-operation that the selector picks. -/
theorem exec_selected_keeps_inv {s t : State} (hinv : Inv s) (hrun : s.phase = .run)
    (h : exec (decodeSel (selector s)) s = .next t) : Inv t := by
  have hsel := selected_of_run hrun
  obtain ⟨hgen, hword, hresp⟩ := hinv
  have hw := hword hrun
  have hopen := hw.probability
  obtain ⟨hp, hcnt, hbuf, hdeg⟩ := hgen hw.valid
  obtain ⟨-, rfl⟩ | ⟨hi, rfl⟩ | ⟨hi, rfl⟩ | ⟨-, u, hu, rfl⟩ := exec_decodeSel_cases h
  · exact inv_of_idle rfl (fun _ => ⟨hp, hcnt, hbuf, fun hno => absurd hopen hno⟩)
      (ResponsesLegal.respond hresp (by decide) fun hne => absurd rfl hne)
  · have hunfinished := ((selected_emit1_iff hrun).mp (hsel.trans (congrArg some hi))).1
    exact ⟨fun _ => ⟨hp, hcnt, hbuf, hdeg⟩, fun _ => wordInv_emit hw hunfinished _ _ _, hresp⟩
  · have hunfinished := ((selected_emit0_iff hrun).mp (hsel.trans (congrArg some hi))).1
    exact ⟨fun _ => ⟨hp, hcnt, hbuf, hdeg⟩, fun _ => wordInv_emit hw hunfinished _ _ _, hresp⟩
  · obtain ⟨hp', hcnt', hbuf', -⟩ := generatorInv_takeFreshBit ⟨hp, hcnt, hbuf, hdeg⟩ hopen hu
    obtain ⟨b, bits, cnt, port, idx, rfl, -⟩ := State.takeFreshBit_frame hu
    exact ⟨fun _ => ⟨hp', hcnt', hbuf', fun hno => absurd hopen hno⟩, fun _ => ⟨hw.valid, hw.command, hw.probability,
      hw.emitted, hw.pRecip, hw.qRecip, hw.result⟩, hresp⟩

end Sys2Proof.Safety

namespace Sys2Proof

open Machine Safety

/-- Settles O26: no generator, no word and no response. -/
theorem resetStateMeetsInv : Obligations.ResetStateMeetsInv :=
  ⟨rfl, rfl, rfl, inv_of_idle rfl (fun hvalid => by cases hvalid) fun r hr => by cases hr⟩

/-- Settles O27: the four kinds of step. -/
theorem stepKeepsInv : Obligations.StepKeepsInv := by
  intro s t hinv h
  obtain ⟨-, hs⟩ | ⟨-, -, -, hs⟩ | ⟨w, ws, -, hidle, -, hs⟩ | ⟨-, hrun, hs⟩ := step_cases s
  · cases hs.symm.trans h; exact inv_resetEvent hinv
  · cases hs.symm.trans h; exact hinv
  · exact exec_command_keeps_inv hinv hidle (hs.symm.trans h)
  · exact exec_selected_keeps_inv hinv hrun (hs.symm.trans h)

end Sys2Proof
end

section
/-! Nothing that has not been written is read (R25, R73): every operation takes agreeing states to agreeing states, so
the step does, and so do runs. -/

namespace Sys2Proof.Safety

open Machine

/-- Two outcomes agree: agreeing next states, or the same fault. -/
def ResultsAgree (x y : Result) : Prop :=
  (∃ u v, x = .next u ∧ y = .next v ∧ AgreeOnWritten u v) ∨ ∃ f, x = .fault f ∧ y = .fault f

theorem ResultsAgree.next {u v : State} (h : AgreeOnWritten u v) : ResultsAgree (.next u) (.next v) :=
  .inl ⟨u, v, rfl, rfl, h⟩

theorem ResultsAgree.fault (f : Fault) : ResultsAgree (.fault f) (.fault f) := .inr ⟨f, rfl, rfl⟩

theorem ResultsAgree.of_next {u : State} {r : Result} (h : ResultsAgree (.next u) r) :
    ∃ v, r = .next v ∧ AgreeOnWritten u v := by
  obtain ⟨_, v, heq, hr, huv⟩ | ⟨_, heq, -⟩ := h <;> cases heq
  exact ⟨v, hr, huv⟩

theorem ResultsAgree.of_fault {f : Fault} {r : Result} (h : ResultsAgree (.fault f) r) : r = .fault f := by
  obtain ⟨_, _, heq, -⟩ | ⟨_, heq, hr⟩ := h <;> cases heq
  exact hr

namespace AgreeOnWritten

variable {s t : State} (h : AgreeOnWritten s t)
include h

/-! ### Each operation -/

theorem accept (o : Op) : AgreeOnWritten (s.accept o) (t.accept o) :=
  { h with cmdPort := congrArg List.tail h.cmdPort }

theorem respond (status : BitVec 2) (data : BitVec 32) :
    AgreeOnWritten (s.respond status data) (t.respond status data) :=
  { h with
    phase := rfl
    rspPort := congrArg (· ++ [rspWord status data]) h.rspPort
    generator := fun hcase => h.generator (.inl (hcase.resolve_right (by rintro ⟨⟩)))
    word := by rintro ⟨⟩ }

theorem raiseInvalidProbability : AgreeOnWritten s.raiseInvalidProbability t.raiseInvalidProbability :=
  { h.respond stInvalidProbability 0#32 with
    valid := rfl
    generator := by rintro (⟨⟨⟩⟩ | ⟨⟨⟩⟩)
    interval := by rintro ⟨⟩ }

theorem construct (arg : Word) : AgreeOnWritten (s.construct arg) (t.construct arg) :=
  { h with
    valid := rfl
    generator := fun _ => ⟨rfl, rfl, rfl⟩
    interval := fun _ => ⟨rfl, rfl⟩ }

theorem startWord (hvalid : s.valid = true) : AgreeOnWritten s.startWord t.startWord := by
  obtain ⟨hp, hbits, hcnt⟩ := h.generator (.inl hvalid)
  obtain ⟨hlow, hhigh⟩ := h.interval hvalid
  have hpRecip : fdiv fOne s.p = fdiv fOne t.p := by rw [hp]
  have hqRecip : fdiv fOne (fsub fOne s.p) = fdiv fOne (fsub fOne t.p) := by rw [hp]
  exact { h with
    phase := rfl
    generator := fun _ => ⟨hp, hbits, hcnt⟩
    word := fun _ => ⟨hlow, hhigh, hpRecip, hqRecip, rfl, rfl⟩ }

section Run

variable (hrun : s.phase = .run)
include hrun

theorem emit (b : Bool) {wlow whigh wlow' whigh' : Word} (hlow : wlow = wlow') (hhigh : whigh = whigh') :
    AgreeOnWritten (s.emit b wlow whigh) (t.emit b wlow' whigh') := by
  obtain ⟨-, -, hpRecip, hqRecip, hresult, hnemit⟩ := h.word hrun
  exact { h with word := fun _ => ⟨hlow, hhigh, hpRecip, hqRecip, by simp [hresult], by simp [hnemit]⟩ }

theorem wordDone : AgreeOnWritten ({ s with low := s.wlow, high := s.whigh }.respond stOk s.result)
    ({ t with low := t.wlow, high := t.whigh }.respond stOk t.result) := by
  obtain ⟨hwlow, hwhigh, -, -, hresult, -⟩ := h.word hrun
  rw [hresult]
  exact { h.respond stOk t.result with interval := fun _ => ⟨hwlow, hwhigh⟩, word := by rintro ⟨⟩ }

/-- R76: `NEXT_BIT` reads the reservoir, the entropy and nothing else, and returns the same bit in both. -/
theorem takeFreshBit :
    (∃ u v, s.takeFreshBit = .ok u ∧ t.takeFreshBit = .ok v ∧ AgreeOnWritten u v ∧ u.bit = v.bit) ∨
    ∃ f, s.takeFreshBit = .error f ∧ t.takeFreshBit = .error f := by
  obtain ⟨hp, hbits, hcnt⟩ := h.generator (.inr hrun)
  have hupcoming : s.upcomingWord 0 = t.upcomingWord 0 := by
    unfold State.upcomingWord
    rw [h.entPort, h.entIdx]
  obtain ⟨hbuffered, hs⟩ | ⟨hempty, hanswers, hs⟩ | ⟨hempty, hsilent, hs⟩ := s.takeFreshBit_cases
  · refine .inl ⟨_, _, hs, State.takeFreshBit_buffered (hcnt ▸ hbuffered), ?_, by simp [hbits]⟩
    exact { h with generator := fun _ => ⟨hp, by simp [hbits], by simp [hcnt]⟩ }
  · refine .inl ⟨_, _, hs, State.takeFreshBit_empty (hcnt ▸ hempty) (h.entSilent ▸ hanswers), ?_, by simp [hupcoming]⟩
    exact { h with
      generator := fun _ => ⟨hp, by simp [hupcoming], rfl⟩
      entPort := congrArg List.tail h.entPort
      entIdx := congrArg (· + 1) h.entIdx }
  · exact .inr ⟨_, hs, State.takeFreshBit_silent (hcnt ▸ hempty) (h.entSilent ▸ hsilent)⟩

theorem halve (hbit : s.bit = t.bit) : AgreeOnWritten s.halve t.halve := by
  obtain ⟨hwlow, hwhigh, hrest⟩ := h.word hrun
  exact { h with word := fun _ => ⟨by simp [hbit, hwlow, hwhigh], by simp [hbit, hwlow, hwhigh], hrest⟩ }

/-! ### Each meaning, and the step -/

theorem selector_eq : selector s = selector t := by
  obtain ⟨hp, -⟩ := h.generator (.inr hrun)
  obtain ⟨hwlow, hwhigh, -, -, -, hnemit⟩ := h.word hrun
  unfold selector doneFlag ltFlag gtFlag
  rw [hp, hwlow, hwhigh, hnemit]

theorem exec_selected : ResultsAgree (exec (decodeSel (selector s)) s) (exec (decodeSel (selector s)) t) := by
  obtain ⟨hp, -⟩ := h.generator (.inr hrun)
  obtain ⟨hwlow, hwhigh, hpRecip, hqRecip, -⟩ := h.word hrun
  obtain hi | hi | hi | hi := decodeSel_cases (selector s) <;> rw [hi]
  · exact .next (h.wordDone hrun)
  · exact .next (h.emit hrun true (congrArg₂ fmul hwlow hpRecip) (congrArg₂ fmul hwhigh hpRecip))
  · exact .next (h.emit hrun false (congrArg₂ fmul (congrArg₂ fsub hwlow hp) hqRecip)
      (congrArg₂ fmul (congrArg₂ fsub hwhigh hp) hqRecip))
  · obtain ⟨u, v, hu, hv, huv, hbit⟩ | ⟨f, hs, ht⟩ := h.takeFreshBit hrun
    · have hurun : u.phase = .run := by
        obtain ⟨b, bits, cnt, port, idx, rfl, -⟩ := State.takeFreshBit_frame hu
        exact hrun
      rw [exec_narrow_of_takeFreshBit hu, exec_narrow_of_takeFreshBit hv]
      exact .next (huv.halve hurun hbit)
    · rw [show exec .narrow s = .fault f from execNarrow_eq_fault_iff.mpr hs,
        show exec .narrow t = .fault f from execNarrow_eq_fault_iff.mpr ht]
      exact .fault f

end Run

theorem exec_create (hidle : s.phase = .idle) (arg : Word) :
    ResultsAgree (exec (.create arg) s) (exec (.create arg) t) := by
  have hidle' : t.phase = .idle := h.phase ▸ hidle
  cases hvalid : invalidProbability arg with
  | true =>
    rw [exec_create_of_invalid hidle hvalid, exec_create_of_invalid hidle' hvalid]
    exact .next (h.accept .create).raiseInvalidProbability
  | false =>
    rw [exec_create_of_valid hidle hvalid, exec_create_of_valid hidle' hvalid]
    exact .next (((h.accept .create).construct arg).respond stOk 0#32)

theorem exec_next (hidle : s.phase = .idle) : ResultsAgree (exec .next s) (exec .next t) := by
  have hidle' : t.phase = .idle := h.phase ▸ hidle
  cases hvalid : s.valid with
  | false =>
    rw [exec_next_of_not_valid hidle hvalid, exec_next_of_not_valid hidle' (h.valid ▸ hvalid)]
    exact .next ((h.accept .next).respond stNotConstructed 0#32)
  | true =>
    have hvalid' : t.valid = true := h.valid ▸ hvalid
    have hp : t.p = s.p := (h.generator (.inl hvalid)).1.symm
    cases hzero : feq s.p fZero with
    | true =>
      rw [exec_next_of_zero hidle hvalid hzero, exec_next_of_zero hidle' hvalid' (hp ▸ hzero)]
      exact .next ((h.accept .next).respond stOk 0#32)
    | false =>
      cases hone : feq s.p fOne with
      | true =>
        rw [exec_next_of_one hidle hvalid hone, exec_next_of_one hidle' hvalid' (hp ▸ hone)]
        exact .next ((h.accept .next).respond stOk 0xFFFFFFFF#32)
      | false =>
        rw [exec_next_of_nondegenerate hidle hvalid hzero hone,
          exec_next_of_nondegenerate hidle' hvalid' (hp ▸ hzero) (hp ▸ hone)]
        exact .next ((h.accept .next).startWord hvalid)

theorem resetEvent : AgreeOnWritten s.resetEvent t.resetEvent :=
  { h with
    valid := rfl
    phase := rfl
    resetPending := rfl
    freeIdx := congrArg (· + 1) h.freeIdx
    generator := by rintro (⟨⟨⟩⟩ | ⟨⟨⟩⟩)
    interval := by rintro ⟨⟩
    word := by rintro ⟨⟩ }

theorem step : ResultsAgree (step s) (step t) := by
  obtain ⟨hreset, hs⟩ | ⟨hreset, hidle, hport, hs⟩ | ⟨w, ws, hreset, hidle, hport, hs⟩ | ⟨hreset, hrun, hs⟩ := step_cases s
  · rw [hs, step_of_reset (h.resetPending ▸ hreset)]
    exact .next h.resetEvent
  · rw [hs, step_of_empty_port (h.resetPending ▸ hreset) (h.phase ▸ hidle) (h.cmdPort ▸ hport)]
    exact .next h
  · rw [hs, step_of_command (h.resetPending ▸ hreset) (h.phase ▸ hidle) (h.cmdPort ▸ hport)]
    obtain ⟨arg, hw⟩ | hw := decodeCommand_cases w <;> rw [hw]
    · exact h.exec_create hidle arg
    · exact h.exec_next hidle
  · rw [hs, step_of_run (h.resetPending ▸ hreset) (h.phase ▸ hrun), ← h.selector_eq hrun]
    exact h.exec_selected hrun

end AgreeOnWritten

end Sys2Proof.Safety

namespace Sys2Proof

open Machine Safety

/-- Settles O31: the two steps have agreeing outcomes. -/
theorem unwrittenRegistersNeverRead : Obligations.UnwrittenRegistersNeverRead := fun _ _ hagree =>
  ⟨fun _ hs => (hs ▸ hagree.step).of_next, fun _ hs => (hs ▸ hagree.step).of_fault⟩

/-- A run from an agreeing state answers an agreeing state. -/
theorem run_agree {k : Nat} : ∀ {s t s' : State}, AgreeOnWritten s t → core.run k s = .next s' →
    ∃ t', core.run k t = .next t' ∧ AgreeOnWritten s' t' := by
  induction k with
  | zero =>
    intro s t s' hagree h
    cases h
    exact ⟨t, run_zero t, hagree⟩
  | succ k ih =>
    intro s t s' hagree h
    obtain ⟨u, hu, hrun⟩ := run_succ_next h
    obtain ⟨v, hv, huv⟩ := (unwrittenRegistersNeverRead s t hagree).1 u hu
    rw [run_succ k hv]
    exact ih huv hrun

/-- Settles O32: without a generator and in `IDLE` no register counts, so the two states agree, and so do their runs. -/
theorem resetValuesUnobservable : Obligations.ResetValuesUnobservable := by
  intro s t hvalid hvalid' hidle hidle' hcmd hrsp hport hidx hsilent hreset hfree k s' hrun
  have hagree : AgreeOnWritten s t :=
    { valid := hvalid.trans hvalid'.symm
      phase := hidle.trans hidle'.symm
      entIdx := hidx
      cmdPort := hcmd
      rspPort := hrsp
      entPort := hport
      entSilent := hsilent
      resetPending := hreset
      freeIdx := hfree
      generator := by simp [hvalid, hidle]
      interval := by simp [hvalid]
      word := by simp [hidle] }
  obtain ⟨t', ht', h⟩ := run_agree hagree hrun
  exact ⟨t', ht', h.rspPort.symm, h.entIdx.symm, h.valid.symm⟩

end Sys2Proof
end

section
/-! The hazards of 70_reset_and_hazards.md section 3: an interval that only ever narrows never ends its word (R98, R101),
and an interval of zero width only ever emits (R99). -/

namespace Sys2Proof.Safety

open Machine

/-! ### Runs of `NARROW` -/

/-- What a run of `NARROW`s leaves alone. -/
structure WordUnmoved (s t : State) : Prop where
  p : t.p = s.p
  nemit : t.nemit = s.nemit
  result : t.result = s.result
  rspPort : t.rspPort = s.rspPort
  cmdPort : t.cmdPort = s.cmdPort
  low : t.low = s.low
  high : t.high = s.high

theorem WordUnmoved.refl (s : State) : WordUnmoved s s := ⟨rfl, rfl, rfl, rfl, rfl, rfl, rfl⟩

theorem WordUnmoved.trans {s t u : State} (h : WordUnmoved s t) (h' : WordUnmoved t u) : WordUnmoved s u where
  p := h'.p.trans h.p
  nemit := h'.nemit.trans h.nemit
  result := h'.result.trans h.result
  rspPort := h'.rspPort.trans h.rspPort
  cmdPort := h'.cmdPort.trans h.cmdPort
  low := h'.low.trans h.low
  high := h'.high.trans h.high

theorem Consumed.trans {m n : Nat} {s t u : State} (h : Consumed m s t) (h' : Consumed n t u) : Consumed (m + n) s u := by
  unfold Consumed at *
  omega

/-- An interval that straddles the threshold, or is not comparable with it, is narrowed. -/
theorem step_eq_narrow {s : State} (hrunning : Running s) (hlt : flt s.whigh s.p = false)
    (hgt : fgt s.wlow s.p = false) : step s = exec .narrow s := by
  rw [step_of_run hrunning.noReset hrunning.phase, decodeSel_selector, if_neg hrunning.unfinished, hlt, hgt]
  rfl

/-- R72: with an answering source a fresh bit is there. -/
theorem takeFreshBit_answers {s : State} (hanswers : s.entSilent = false) : ∃ u, s.takeFreshBit = .ok u := by
  obtain ⟨-, h⟩ | ⟨-, -, h⟩ | ⟨-, hsilent, -⟩ := s.takeFreshBit_cases
  · exact ⟨_, h⟩
  · exact ⟨_, h⟩
  · rw [hanswers] at hsilent; cases hsilent

/-- A condition that makes the step a `NARROW` and that the `NARROW` keeps holds for ever: the word does not move, and
every step consumes one bit. -/
theorem run_of_narrowing {P : State → Prop} (hrunning : ∀ s, P s → Running s)
    (hlt : ∀ s, P s → flt s.whigh s.p = false) (hgt : ∀ s, P s → fgt s.wlow s.p = false)
    (hkeeps : ∀ s u, P s → s.takeFreshBit = .ok u → P u.halve) {s : State} (hs : P s) (k : Nat) :
    ∃ t, core.run k s = .next t ∧ P t ∧ WordUnmoved s t ∧ Consumed k s t := by
  induction k with
  | zero => exact ⟨s, run_zero s, hs, .refl s, rfl⟩
  | succ k ih =>
    obtain ⟨t, hrun, ht, hunmoved, hconsumed⟩ := ih
    obtain ⟨u, hu⟩ := takeFreshBit_answers (hrunning t ht).answers
    have hstep : step t = .next u.halve :=
      (step_eq_narrow (hrunning t ht) (hlt t ht) (hgt t ht)).trans (exec_narrow_of_takeFreshBit hu)
    refine ⟨u.halve, (run_snoc hrun).trans hstep, hkeeps t u ht hu, hunmoved.trans ?_,
      hconsumed.trans (takeFreshBit_consumed hu)⟩
    · obtain ⟨b, bits, cnt, port, idx, rfl, -⟩ := State.takeFreshBit_frame hu
      exact ⟨rfl, rfl, rfl, rfl, rfl, rfl, rfl⟩

theorem Running.halve {s u : State} (h : Running s) (hu : s.takeFreshBit = .ok u) : Running u.halve := by
  obtain ⟨b, bits, cnt, port, idx, rfl, -⟩ := State.takeFreshBit_frame hu
  exact ⟨h.phase, h.unfinished, h.noReset, h.answers⟩

/-! ### The collapsed interval (R98) -/

/-- Doubling a magnitude raises its weight, or shifts a significand that has room. -/
theorem exists_double (n : Nat) : ∃ j, j ≤ n + 2 ^ 52 ∧ magOf j = 2 * magOf n := by
  obtain ⟨k, m, rfl, hk, hm⟩ := exists_pack n
  by_cases hsig : 2 ^ 52 ≤ m
  · refine ⟨(k + 1) * 2 ^ 52 + m, (by rw [Nat.add_one_mul, add_right_comm]), ?_⟩
    rw [magOf_pack (.inr hsig) hm.le, magOf_pack (.inr hsig) hm.le, pow_succ', mul_left_comm]
  · obtain rfl : k = 0 := hk.resolve_right hsig
    refine ⟨0 * 2 ^ 52 + 2 * m, by omega, ?_⟩
    rw [magOf_pack (.inl rfl) (by omega), magOf_pack (.inl rfl) hm.le, mul_assoc]

/-- R67: the midpoint of a point is the point, because doubling and halving are exact. -/
theorem halfSum_self {p : Word} (hp : openProbability p) : halfSum p p = p := by
  have hfin := openProbability_finite hp
  have hone : 0x3FF0000000000000 + 2 ^ 52 < infMagnitude := by decide
  obtain ⟨j, hj, hdouble⟩ := exists_double p.toNat
  have hjfin : j < infMagnitude := lt_of_le_of_lt hj ((Nat.add_lt_add_right hp.2 _).trans hone)
  have hsum : (fadd p p).toNat = j := by
    rw [fadd_toNat hfin hfin hp.1, ← two_mul, ← hdouble, ← mul_one (magOf j)]
    exact roundUnits_exact Nat.one_pos hjfin.le
  have hhalf : magOf fHalf.toNat * magOf j = magOf p.toNat * unitsInOne := by
    rw [hdouble, ← two_mul_magOf_half, mul_left_comm, mul_left_comm (magOf p.toNat), mul_comm (magOf fHalf.toNat)]
    rfl
  refine BitVec.eq_of_toNat_eq ?_
  unfold halfSum
  rw [fmul_toNat (by decide) (hsum.trans_lt hjfin), hsum, hhalf]
  exact roundUnits_exact unitsInOne_pos hfin.le

theorem flt_self {p : Word} (hp : openProbability p) : flt p p = false := by
  have hle := (openProbability_finite hp).le
  rw [flt_eq_toNat_lt hle hle, decide_eq_false (lt_irrefl _)]

theorem Collapsed.halve {s u : State} (h : Collapsed s) (hu : s.takeFreshBit = .ok u) : Collapsed u.halve := by
  obtain ⟨hrunning, hopen, hwlow, hwhigh⟩ := h
  have hrunning' := hrunning.halve hu
  obtain ⟨b, bits, cnt, port, idx, rfl, -⟩ := State.takeFreshBit_frame hu
  have hmid : halfSum s.p s.p = s.p := halfSum_self hopen
  exact ⟨hrunning', hopen, by simp [hwlow, hwhigh, hmid], by simp [hwlow, hwhigh, hmid]⟩

/-! ### The interval with a NaN (R101) -/

/-- R101: a NaN endpoint makes the midpoint a NaN, so both choices of `NARROW` keep the lower endpoint a NaN and the
upper one not below the threshold. -/
theorem NaNInterval.halve {s u : State} (h : NaNInterval s) (hu : s.takeFreshBit = .ok u) : NaNInterval u.halve := by
  obtain ⟨hrunning, hwlow, hwhigh⟩ := h
  have hrunning' := hrunning.halve hu
  obtain ⟨b, bits, cnt, port, idx, rfl, -⟩ := State.takeFreshBit_frame hu
  have hmid : isNaN (halfSum s.wlow s.whigh) = true := isNaN_fmul_right fHalf (isNaN_fadd_left hwlow s.whigh)
  cases b with
  | true => exact ⟨hrunning', by simpa using hmid, by simpa using hwhigh⟩
  | false => exact ⟨hrunning', by simpa using hwlow, by simpa using flt_of_nan_left hmid s.p⟩

/-! ### The interval of zero width (R99) -/

/-- What an emit of a zero-width interval does: the bit, the mapped point twice, no entropy. -/
theorem step_of_zero_width {s : State} (hrun : s.phase = .run) (hreset : s.resetPending = false)
    (hwidth : s.wlow = s.whigh) (hunfinished : s.nemit.toNat ≠ 32) (hside : flt s.wlow s.p = true ∨ fgt s.wlow s.p = true) :
    ∃ x, x = (if flt s.wlow s.p then fmul s.wlow s.pRecip else fmul (fsub s.wlow s.p) s.qRecip) ∧
      step s = .next (s.emit (flt s.wlow s.p) x x) := by
  rw [step_of_run hreset hrun, decodeSel_selector, if_neg hunfinished, ← hwidth]
  cases hlt : flt s.wlow s.p with
  | true => exact ⟨_, rfl, by rw [if_pos rfl, exec_emit1, ← hwidth]; rfl⟩
  | false =>
    have hgt : fgt s.wlow s.p = true := hside.resolve_left (by rw [hlt]; decide)
    exact ⟨_, rfl, by rw [if_neg (by decide), hgt, if_pos rfl, exec_emit0, ← hwidth]; rfl⟩

end Sys2Proof.Safety

namespace Sys2Proof

open Machine Safety

/-- Settles O33: the point is neither below nor above itself, and its midpoint with itself is itself. -/
theorem collapsedIntervalNeverResponds : Obligations.CollapsedIntervalNeverResponds := by
  intro s hs k
  obtain ⟨t, hrun, ht, hunmoved, hconsumed⟩ := run_of_narrowing (P := Collapsed) (fun _ h => h.toRunning)
    (fun _ h => by rw [h.whigh, flt_self h.probability]) (fun _ h => by rw [h.wlow]; exact flt_self h.probability)
    (fun _ _ => Collapsed.halve) hs k
  exact ⟨t, hrun, ht, hunmoved.p, hunmoved.nemit, hunmoved.result, hunmoved.rspPort, hunmoved.cmdPort, hunmoved.low,
    hunmoved.high, hconsumed⟩

/-- Settles O34: a NaN is not above the threshold, and a midpoint with it is again a NaN. -/
theorem nanIntervalNeverEmits : Obligations.NaNIntervalNeverEmits := by
  intro s hs k
  obtain ⟨t, hrun, ht, hunmoved, hconsumed⟩ := run_of_narrowing (P := NaNInterval) (fun _ h => h.toRunning)
    (fun _ h => h.whigh) (fun s h => flt_of_nan_right s.p h.wlow) (fun _ _ => NaNInterval.halve) hs k
  exact ⟨t, hrun, ht, hunmoved.nemit, hunmoved.result, hunmoved.rspPort, hconsumed⟩

/-- Settles O35: the point lies on one side of the threshold, so both endpoints take the same map; at the end
`WORD_DONE` persists both. -/
theorem zeroWidthIntervalIsDead : Obligations.ZeroWidthIntervalIsDead := by
  intro s hrun hreset hwidth hnan hpnan hne
  refine ⟨fun hunfinished => ?_, fun hdone => ?_⟩
  · obtain ⟨x, hx, hstep⟩ :=
      step_of_zero_width hrun hreset hwidth hunfinished (flt_or_fgt_of_not_feq hnan hpnan hne)
    refine ⟨_, hstep, ⟨rfl, rfl, rfl, rfl⟩, rfl, hx, rfl, ?_⟩
    cases flt s.wlow s.p <;> rfl
  · have hstep : step s = exec .wordDone s := by
      rw [step_of_run hreset hrun, decodeSel_selector, if_pos hdone]
    exact ⟨_, hstep, ⟨rfl, rfl, rfl, rfl⟩, rfl, hwidth.symm⟩

end Sys2Proof
end

section
/-! The order of bits in `RESULT` (R71) and out of the reservoir (R78), and `NEXT` as the big-step loop of R70. -/

namespace Sys2Proof.Safety

open Machine

/-! ### The bits of the reservoir -/

/-- What `j + 1` executions of `NEXT_BIT` leave, from an empty reservoir: bit `j mod 64` of the word `j div 64` has been
returned, and the bits above it are buffered. -/
structure AfterBits (s : State) (j : Nat) (t : State) : Prop where
  bit : t.bit = (s.upcomingWord (j / 64)).getLsbD (j % 64)
  rsvBits : t.rsvBits = s.upcomingWord (j / 64) >>> (j % 64 + 1)
  rsvCnt : t.rsvCnt.toNat = 63 - j % 64
  entPort : t.entPort = s.entPort.drop (j / 64 + 1)
  entIdx : t.entIdx = s.entIdx + (j / 64 + 1)
  answers : t.entSilent = false

/-- R24: the stream goes on where it was left. -/
theorem upcomingWord_of_drawn {s t : State} {n : Nat} (hport : t.entPort = s.entPort.drop n)
    (hidx : t.entIdx = s.entIdx + n) : t.upcomingWord 0 = s.upcomingWord n := by
  unfold State.upcomingWord
  rw [hport, hidx, List.getElem?_drop, Nat.add_zero, Nat.add_zero]

theorem exec_nextBit_first {s : State} (hempty : s.rsvCnt = 0#7) (hanswers : s.entSilent = false) :
    ∃ t, exec .nextBit s = .next t ∧ AfterBits s 0 t :=
  ⟨_, exec_nextBit_of_takeFreshBit (State.takeFreshBit_empty hempty hanswers),
    rfl, rfl, rfl, (List.drop_one).symm, rfl, hanswers⟩

/-- R76, R78: after the last bit of a word comes the lowest of the next. -/
theorem exec_nextBit_next_word {s t : State} {j : Nat} (h : AfterBits s j t) (hlast : j % 64 = 63) :
    ∃ u, exec .nextBit t = .next u ∧ AfterBits s (j + 1) u := by
  have hempty : t.rsvCnt = 0#7 := BitVec.eq_of_toNat_eq (by rw [h.rsvCnt, hlast]; rfl)
  have hdiv : (j + 1) / 64 = j / 64 + 1 := Nat.add_div_eq_of_le_mod_add_mod (by rw [hlast]) (by decide)
  have hmod : (j + 1) % 64 = 0 := by rw [Nat.add_mod, hlast]
  have hword : t.upcomingWord 0 = s.upcomingWord (j / 64 + 1) := upcomingWord_of_drawn h.entPort h.entIdx
  refine ⟨_, exec_nextBit_of_takeFreshBit (State.takeFreshBit_empty hempty h.answers), ?_⟩
  constructor
  case bit => rw [hdiv, hmod, ← hword]
  case rsvBits => rw [hdiv, hmod, ← hword]
  case rsvCnt => rw [hmod]; rfl
  case entPort => rw [hdiv]; exact (congrArg List.tail h.entPort).trans List.tail_drop
  case entIdx => rw [hdiv]; exact congrArg (· + 1) h.entIdx
  case answers => exact h.answers

/-- R76, R78: before it, the bit above. -/
theorem exec_nextBit_same_word {s t : State} {j : Nat} (h : AfterBits s j t) (hlt : j % 64 < 63) :
    ∃ u, exec .nextBit t = .next u ∧ AfterBits s (j + 1) u := by
  have hdiv : (j + 1) / 64 = j / 64 := Nat.add_div_eq_of_add_mod_lt (Nat.add_lt_add_right hlt 1)
  have hmod : (j + 1) % 64 = j % 64 + 1 := Nat.add_mod_of_add_mod_lt (Nat.add_lt_add_right hlt 1)
  have hbuffered : t.rsvCnt ≠ 0#7 := fun he =>
    (Nat.sub_pos_of_lt hlt).ne' (h.rsvCnt.symm.trans (congrArg BitVec.toNat he))
  refine ⟨_, exec_nextBit_of_takeFreshBit (State.takeFreshBit_buffered hbuffered), ?_⟩
  constructor
  case bit => rw [hdiv, hmod, State.takeBit_bit, h.rsvBits, BitVec.getLsbD_ushiftRight, Nat.add_zero]
  case rsvBits => rw [hdiv, hmod, State.takeBit_rsvBits, h.rsvBits, ← BitVec.shiftRight_add]
  case rsvCnt => rw [hmod, State.takeBit_rsvCnt_toNat hbuffered, h.rsvCnt, Nat.sub_sub]
  case entPort => rw [hdiv]; exact h.entPort
  case entIdx => rw [hdiv]; exact h.entIdx
  case answers => exact h.answers

theorem exec_nextBit_again {s t : State} {j : Nat} (h : AfterBits s j t) :
    ∃ u, exec .nextBit t = .next u ∧ AfterBits s (j + 1) u := by
  obtain hlt | hlast := Nat.lt_or_ge (j % 64) 63
  · exact exec_nextBit_same_word h hlt
  · exact exec_nextBit_next_word h (le_antisymm (Nat.le_of_lt_succ (Nat.mod_lt _ (by decide))) hlast)

set_option smartUnfolding false in
theorem repeatInstr_succ {i : Instr} {n : Nat} {s t : State} (h : repeatInstr i n s = .next t) :
    repeatInstr i (n + 1) s = exec i t := by
  change Host.Outcome.casesOn (motive := fun _ => Result) (repeatInstr i n s) (exec i) .fault .refused = exec i t
  rw [h]

/-- R78, by induction over the executions. -/
theorem repeat_nextBit {s : State} (hempty : s.rsvCnt = 0#7) (hanswers : s.entSilent = false) (j : Nat) :
    ∃ t, repeatInstr .nextBit (j + 1) s = .next t ∧ AfterBits s j t := by
  induction j with
  | zero => exact exec_nextBit_first hempty hanswers
  | succ j ih =>
    obtain ⟨t, ht, hafter⟩ := ih
    obtain ⟨u, hu, hafter'⟩ := exec_nextBit_again hafter
    exact ⟨u, (repeatInstr_succ ht).trans hu, hafter'⟩

/-! ### The bits of `RESULT` -/

theorem emitBits_cons (b : Bool) (bs : List Bool) (s : State) :
    ∃ wlow whigh, emitBits (b :: bs) s = emitBits bs (s.emit b wlow whigh) := by
  cases b <;> exact ⟨_, _, rfl⟩

/-- R17: an emit puts its bit at the bottom. -/
theorem appendBit_getLsbD_zero (r : BitVec 32) (b : Bool) :
    ((r <<< 1) ||| (BitVec.ofBool b).setWidth 32).getLsbD 0 = b := by
  cases b <;> simp

/-- R17: and it moves the others up. -/
theorem appendBit_getLsbD_succ (r : BitVec 32) (b : Bool) {i : Nat} (hi : i + 1 < 32) :
    ((r <<< 1) ||| (BitVec.ofBool b).setWidth 32).getLsbD (i + 1) = r.getLsbD i := by
  rw [BitVec.getLsbD_or, BitVec.getLsbD_shiftLeft, BitVec.getLsbD_setWidth,
    BitVec.getLsbD_of_ge _ (i + 1) (Nat.le_add_left 1 i), decide_eq_true hi, Nat.add_sub_cancel, Bool.and_false, Bool.or_false]
  simp

/-- R71 for any number of emits: what was there moves up, and below it the `j`-th bit has as many under it as were emitted
after it. -/
theorem emitBits_result (bits : List Bool) : ∀ s : State, ∃ t, emitBits bits s = .next t ∧
    (∀ i, i + bits.length < 32 → t.result.getLsbD (i + bits.length) = s.result.getLsbD i) ∧
    (bits.length ≤ 32 → ∀ j < bits.length, t.result.getLsbD (bits.length - (j + 1)) = bits.getD j false) := by
  induction bits with
  | nil => exact fun s => ⟨s, rfl, fun i _ => rfl, fun _ j hj => absurd hj (Nat.not_lt_zero j)⟩
  | cons b bs ih =>
    intro s
    obtain ⟨wlow, whigh, hemits⟩ := emitBits_cons b bs s
    obtain ⟨t, ht, hold, hnew⟩ := ih (s.emit b wlow whigh)
    refine ⟨t, hemits.trans ht, fun i hi => ?_, fun hlength j hj => ?_⟩
    · rw [List.length_cons, ← Nat.succ_add_eq_add_succ] at hi ⊢
      rw [hold _ hi, State.emit_result, appendBit_getLsbD_succ _ _ ((Nat.le_add_right _ _).trans_lt hi)]
    · rw [List.length_cons, Nat.succ_sub_succ]
      cases j with
      | zero =>
        have hbottom := hold 0 ((Nat.zero_add _).trans_lt hlength)
        rwa [Nat.zero_add, State.emit_result, appendBit_getLsbD_zero] at hbottom
      | succ j => exact hnew (Nat.le_of_succ_le hlength) j (Nat.lt_of_succ_lt_succ hj)

end Sys2Proof.Safety

namespace Sys2Proof

open Machine Safety

/-- Settles O17: the `i`-th of 32 bits has the others above `i` under it. -/
theorem outputBitOrder : Obligations.OutputBitOrder := by
  intro bits s hlength _
  obtain ⟨t, ht, -, hbits⟩ := emitBits_result bits s
  rw [hlength] at hbits
  refine ⟨t, ht, fun i hi => ?_⟩
  rw [← hbits le_rfl i hi, Nat.succ_sub_succ]

/-- Settles O21: what `j + 1` executions leave names the bit. -/
theorem reservoirBitOrder : Obligations.ReservoirBitOrder := fun _ j hempty hanswers => by
  obtain ⟨t, ht, hafter⟩ := repeat_nextBit hempty hanswers j
  exact ⟨t, ht, hafter.bit⟩

end Sys2Proof

namespace Sys2Proof.Safety

open Machine

/-! ### The big-step loop -/

/-- R67 on the loop's variables: the endpoint that the fresh bit chooses moves to the midpoint. -/
def LoopVars.narrow (v : LoopVars) (env : State) : LoopVars :=
  { v with
    env := env
    lo := if env.bit then halfSum v.lo v.hi else v.lo
    hi := if env.bit then v.hi else halfSum v.lo v.hi }

theorem LoopVars.narrow_eq (v : LoopVars) (env : State) :
    (if env.bit then { v with lo := fmul fHalf (fadd v.lo v.hi), env := env }
      else { v with hi := fmul fHalf (fadd v.lo v.hi), env := env }) = v.narrow env := by
  unfold narrow
  split_ifs <;> rfl

/-- One iteration of the loop of R70; nothing when a fresh bit is needed and does not come. -/
def loopBody (p pr qr : Word) (v : LoopVars) : Option LoopVars :=
  if flt v.hi p then
    some { v with res := (v.res <<< 1) ||| 1#32, lo := fmul v.lo pr, hi := fmul v.hi pr, n := v.n + 1 }
  else if fgt v.lo p then
    some { v with
      res := (v.res <<< 1) ||| 0#32, lo := fmul (fsub v.lo p) qr, hi := fmul (fsub v.hi p) qr, n := v.n + 1 }
  else v.env.takeFreshBit.toOption.map v.narrow

section

variable {p pr qr : Word} {v : LoopVars}

theorem loopBody_of_lt (hlt : flt v.hi p = true) : loopBody p pr qr v =
    some { v with res := (v.res <<< 1) ||| 1#32, lo := fmul v.lo pr, hi := fmul v.hi pr, n := v.n + 1 } :=
  if_pos hlt

theorem loopBody_of_gt (hlt : ¬ flt v.hi p = true) (hgt : fgt v.lo p = true) : loopBody p pr qr v =
    some { v with
      res := (v.res <<< 1) ||| 0#32, lo := fmul (fsub v.lo p) qr, hi := fmul (fsub v.hi p) qr, n := v.n + 1 } :=
  (if_neg hlt).trans (if_pos hgt)

theorem loopBody_of_straddles (hlt : ¬ flt v.hi p = true) (hgt : ¬ fgt v.lo p = true) :
    loopBody p pr qr v = v.env.takeFreshBit.toOption.map v.narrow :=
  (if_neg hlt).trans (if_neg hgt)

end

theorem wordLoop_of_done (p pr qr : Word) (fuel : Nat) {v : LoopVars} (hdone : 32 ≤ v.n) :
    wordLoop p pr qr fuel v = some (v, 0) := by
  cases fuel <;> exact if_pos hdone

theorem wordLoop_zero (p pr qr : Word) {v : LoopVars} (hmore : v.n < 32) : wordLoop p pr qr 0 v = none :=
  if_neg hmore.not_ge

/-- `wordLoop` iterates `loopBody`. -/
theorem wordLoop_succ (p pr qr : Word) (fuel : Nat) {v : LoopVars} (hmore : v.n < 32) :
    wordLoop p pr qr (fuel + 1) v =
      (loopBody p pr qr v).bind fun v' => (wordLoop p pr qr fuel v').map fun wk => (wk.1, wk.2 + 1) := by
  refine (if_neg (c := 32 ≤ v.n) hmore.not_ge).trans ?_
  by_cases hlt : flt v.hi p = true
  · rw [loopBody_of_lt hlt]
    exact if_pos hlt
  · refine (if_neg hlt).trans ?_
    by_cases hgt : fgt v.lo p = true
    · rw [loopBody_of_gt hlt hgt]
      exact if_pos hgt
    · rw [loopBody_of_straddles hlt hgt]
      refine (if_neg hgt).trans ?_
      cases v.env.takeFreshBit with
      | error f => rfl
      | ok env => exact congrArg (fun w => (wordLoop p pr qr fuel w).map fun wk => (wk.1, wk.2 + 1)) (v.narrow_eq env)

/-- The block's state while the loop has the variables `v`, in a word that began in `s₀`. -/
def loopState (s₀ : State) (v : LoopVars) : State :=
  { s₀ with
    wlow := v.lo, whigh := v.hi, result := v.res, nemit := BitVec.ofNat 6 v.n
    rsvBits := v.env.rsvBits, rsvCnt := v.env.rsvCnt, entIdx := v.env.entIdx, entPort := v.env.entPort
    bit := v.env.bit }

/-- R17: the two counters go up together. -/
theorem loopState_emit (s₀ : State) {v : LoopVars} {b : Bool} {res : BitVec 32} {lo hi : Word}
    (hres : (v.res <<< 1) ||| (BitVec.ofBool b).setWidth 32 = res) :
    Host.Outcome.next ((loopState s₀ v).emit b lo hi) =
      (.next (loopState s₀ { v with res := res, lo := lo, hi := hi, n := v.n + 1 }) : Result) := by
  have hcount : BitVec.ofNat 6 v.n + 1#6 = BitVec.ofNat 6 (v.n + 1) := (BitVec.ofNat_add ..).symm
  unfold State.emit loopState
  rw [hres, hcount]

theorem toOption_eq_some {x : Except Fault State} {s : State} (h : x.toOption = some s) : x = .ok s := by
  cases x <;> cases h
  rfl

/-- The loop has not run over, and its reservoir has the block's source. -/
structure LoopInv (s₀ : State) (v : LoopVars) : Prop where
  count : v.n ≤ 32
  silent : v.env.entSilent = s₀.entSilent

section

variable {s₀ : State} {v : LoopVars} (hinv : LoopInv s₀ v)
include hinv

theorem loopState_nemit : (loopState s₀ v).nemit.toNat = v.n := by
  exact (BitVec.toNat_ofNat ..).trans (Nat.mod_eq_of_lt (hinv.count.trans_lt (by decide)))

/-- `NEXT_BIT` on the block's state is `NEXT_BIT` on the loop's reservoir. -/
theorem loopState_takeFreshBit {env : State} (henv : v.env.takeFreshBit = .ok env) :
    (loopState s₀ v).takeFreshBit = .ok (loopState s₀ { v with env := env }) ∧ env.entSilent = s₀.entSilent := by
  obtain ⟨hbuffered, h⟩ | ⟨hempty, hanswers, h⟩ | ⟨-, -, h⟩ := v.env.takeFreshBit_cases <;> rw [h] at henv <;> cases henv
  · exact ⟨State.takeFreshBit_buffered (s := loopState s₀ v) hbuffered, hinv.silent⟩
  · have hanswers' : (loopState s₀ v).entSilent = false := hinv.silent ▸ hanswers
    exact ⟨State.takeFreshBit_empty (s := loopState s₀ v) hempty hanswers', hinv.silent⟩

variable (hrun : s₀.phase = .run) (hreset : s₀.resetPending = false)
include hrun hreset

/-- R64, R70: one step of the block is one iteration of the loop. -/
theorem step_loopState (hmore : v.n < 32) {v' : LoopVars} (hbody : loopBody s₀.p s₀.pRecip s₀.qRecip v = some v') :
    step (loopState s₀ v) = .next (loopState s₀ v') ∧ LoopInv s₀ v' := by
  have hstep : step (loopState s₀ v) = exec (decodeSel (selector (loopState s₀ v))) (loopState s₀ v) :=
    step_of_run hreset hrun
  rw [decodeSel_selector, loopState_nemit hinv, if_neg hmore.ne] at hstep
  by_cases hlt : flt v.hi s₀.p = true
  · rw [loopBody_of_lt hlt] at hbody
    cases hbody
    rw [if_pos (show flt (loopState s₀ v).whigh (loopState s₀ v).p = true from hlt), exec_emit1] at hstep
    exact ⟨hstep.trans (loopState_emit s₀ rfl), hmore, hinv.silent⟩
  · rw [if_neg (show ¬ flt (loopState s₀ v).whigh (loopState s₀ v).p = true from hlt)] at hstep
    by_cases hgt : fgt v.lo s₀.p = true
    · rw [loopBody_of_gt hlt hgt] at hbody
      cases hbody
      rw [if_pos (show fgt (loopState s₀ v).wlow (loopState s₀ v).p = true from hgt), exec_emit0] at hstep
      exact ⟨hstep.trans (loopState_emit s₀ rfl), hmore, hinv.silent⟩
    · rw [if_neg (show ¬ fgt (loopState s₀ v).wlow (loopState s₀ v).p = true from hgt)] at hstep
      rw [loopBody_of_straddles hlt hgt] at hbody
      obtain ⟨env, henv, rfl⟩ := Option.map_eq_some_iff.mp hbody
      obtain ⟨htake, hsilent⟩ := loopState_takeFreshBit hinv (toOption_eq_some henv)
      exact ⟨hstep.trans (exec_narrow_of_takeFreshBit htake), hinv.count, hsilent⟩

end

/-- With an answering source every iteration completes. -/
theorem loopBody_answers {p pr qr : Word} {v : LoopVars} (hanswers : v.env.entSilent = false) :
    ∃ v', loopBody p pr qr v = some v' := by
  obtain ⟨env, henv⟩ := takeFreshBit_answers hanswers
  by_cases hlt : flt v.hi p = true
  · exact ⟨_, loopBody_of_lt hlt⟩
  · by_cases hgt : fgt v.lo p = true
    · exact ⟨_, loopBody_of_gt hlt hgt⟩
    · exact ⟨_, (loopBody_of_straddles hlt hgt).trans (by rw [henv]; rfl)⟩

section

variable {s₀ : State} (hrun : s₀.phase = .run) (hreset : s₀.resetPending = false)
include hrun hreset

/-- R70: where the loop ends after `k` iterations, `k` steps of the block end with its variables. -/
theorem run_of_wordLoop_some {fuel : Nat} : ∀ {v w : LoopVars} {k : Nat}, LoopInv s₀ v →
    wordLoop s₀.p s₀.pRecip s₀.qRecip fuel v = some (w, k) →
    core.run k (loopState s₀ v) = .next (loopState s₀ w) ∧ LoopInv s₀ w ∧ w.n = 32 := by
  induction fuel with
  | zero =>
    intro v w k hinv hloop
    by_cases hmore : v.n < 32
    · rw [wordLoop_zero _ _ _ hmore] at hloop; cases hloop
    · rw [wordLoop_of_done _ _ _ _ (not_lt.mp hmore)] at hloop
      cases hloop
      exact ⟨run_zero _, hinv, le_antisymm hinv.count (not_lt.mp hmore)⟩
  | succ fuel ih =>
    intro v w k hinv hloop
    by_cases hmore : v.n < 32
    · rw [wordLoop_succ _ _ _ _ hmore] at hloop
      obtain ⟨v', hbody, hrest⟩ := Option.bind_eq_some_iff.mp hloop
      obtain ⟨⟨w', j⟩, htail, heq⟩ := Option.map_eq_some_iff.mp hrest
      cases heq
      obtain ⟨hstep, hinv'⟩ := step_loopState hinv hrun hreset hmore hbody
      rw [run_succ j hstep]
      exact ih hinv' htail
    · rw [wordLoop_of_done _ _ _ _ (not_lt.mp hmore)] at hloop
      cases hloop
      exact ⟨run_zero _, hinv, le_antisymm hinv.count (not_lt.mp hmore)⟩

/-- R70: where the fuel ends first, the block is as many steps further in the same word. -/
theorem run_of_wordLoop_none (hanswers : s₀.entSilent = false) {fuel : Nat} : ∀ {v : LoopVars}, LoopInv s₀ v →
    wordLoop s₀.p s₀.pRecip s₀.qRecip fuel v = none → ∃ w, core.run fuel (loopState s₀ v) = .next (loopState s₀ w) := by
  induction fuel with
  | zero => exact fun {v} _ _ => ⟨v, run_zero _⟩
  | succ fuel ih =>
    intro v hinv hloop
    by_cases hmore : v.n < 32
    · obtain ⟨v', hbody⟩ := loopBody_answers (p := s₀.p) (pr := s₀.pRecip) (qr := s₀.qRecip) (hinv.silent.trans hanswers)
      rw [wordLoop_succ _ _ _ _ hmore, hbody, Option.bind_some, Option.map_eq_none_iff] at hloop
      obtain ⟨hstep, hinv'⟩ := step_loopState hinv hrun hreset hmore hbody
      rw [run_succ fuel hstep]
      exact ih hinv' hloop
    · rw [wordLoop_of_done _ _ _ _ (not_lt.mp hmore)] at hloop; cases hloop

end

/-- R61, R62: the first step of a word. -/
theorem step_startWord {s : State} {w : CmdWord} {ws : List CmdWord} (hidle : s.phase = .idle)
    (hreset : s.resetPending = false) (hvalid : s.valid = true) (hzero : feq s.p fZero = false)
    (hone : feq s.p fOne = false) (hport : s.cmdPort = w :: ws) (hop : w.getLsbD 64 = true) :
    step s = .next (loopState (s.accept .next).startWord (wordLoopStart s)) := by
  have hdecode : decodeCommand w = .next := if_pos hop
  rw [step_of_command hreset hidle hport, hdecode, exec_next_of_nondegenerate hidle hvalid hzero hone]
  rfl

/-- R69: the last step of a word. -/
theorem step_of_finished {s₀ : State} {v : LoopVars} (hinv : LoopInv s₀ v) (hrun : s₀.phase = .run)
    (hreset : s₀.resetPending = false) (hdone : v.n = 32) :
    step (loopState s₀ v) = .next ({ loopState s₀ v with low := v.lo, high := v.hi }.respond stOk v.res) := by
  have hstep : step (loopState s₀ v) = exec (decodeSel (selector (loopState s₀ v))) (loopState s₀ v) :=
    step_of_run hreset hrun
  rw [hstep, decodeSel_selector, loopState_nemit hinv, if_pos hdone, exec_wordDone]
  rfl

end Sys2Proof.Safety

namespace Sys2Proof

open Machine Safety

/-- Settles O18: the accepting step, one step for each iteration, and `WORD_DONE`. -/
theorem wordEqualsBigStep : Obligations.WordEqualsBigStep := by
  intro s w ws fuel hidle hreset hvalid hzero hone hport hop
  have hstart := step_startWord hidle hreset hvalid hzero hone hport hop
  have hinv : LoopInv (s.accept .next).startWord (wordLoopStart s) := ⟨Nat.zero_le _, rfl⟩
  have hcmd : s.cmdPort.tail = ws := by rw [hport, List.tail_cons]
  split
  · next v k hloop =>
    obtain ⟨hrun, hinv', hdone⟩ := run_of_wordLoop_some (s₀ := (s.accept .next).startWord) rfl hreset hinv hloop
    refine ⟨_, (run_succ (k + 1) hstart).trans ((run_snoc hrun).trans (step_of_finished hinv' rfl hreset hdone)), ?_⟩
    exact ⟨rfl, rfl, hcmd, rfl, rfl, rfl, hvalid, rfl, rfl, rfl, rfl⟩
  · next hloop =>
    intro hanswers
    obtain ⟨v, hrun⟩ := run_of_wordLoop_none (s₀ := (s.accept .next).startWord) rfl hreset hanswers hinv hloop
    exact ⟨_, (run_succ fuel hstart).trans hrun, rfl, rfl, hcmd, rfl, rfl⟩

end Sys2Proof
end

section
/-! R27 on the other operands: the default results on NaNs, infinities and zero divisors. -/

namespace Sys2Proof.Machine

theorem isNaN_addValues_left (o : FOp) (a b : Word) (y : FVal) : isNaN (addValues o a b .nan y) = true := by
  rw [addValues, isNaN_quietNaN]

theorem FVal.negate_nan : FVal.nan.negate = .nan := rfl

theorem FVal.negate_inf (s : Bool) : (FVal.inf s).negate = .inf !s := rfl

theorem FVal.negate_fin (s : Bool) (m : Nat) : (FVal.fin s m).negate = .fin (!s) m := rfl

theorem isNaN_addValues_right (o : FOp) (a b : Word) (x : FVal) : isNaN (addValues o a b x .nan) = true := by
  cases x <;> exact isNaN_quietNaN o a b

theorem isNaN_fadd_of_nan {a b : Word} (h : isNaN a = true ∨ isNaN b = true) : isNaN (fadd a b) = true := by
  obtain ha | hb := h
  · rw [fadd, (valueOf_eq_nan_iff a).mpr ha, isNaN_addValues_left]
  · rw [fadd, (valueOf_eq_nan_iff b).mpr hb, isNaN_addValues_right]

theorem isNaN_fsub_of_nan {a b : Word} (h : isNaN a = true ∨ isNaN b = true) : isNaN (fsub a b) = true := by
  obtain ha | hb := h
  · rw [fsub, (valueOf_eq_nan_iff a).mpr ha, isNaN_addValues_left]
  · rw [fsub, (valueOf_eq_nan_iff b).mpr hb, FVal.negate_nan, isNaN_addValues_right]

theorem isNaN_fmul_of_nan {a b : Word} (h : isNaN a = true ∨ isNaN b = true) : isNaN (fmul a b) = true := by
  obtain ha | hb := h
  · rw [fmul, (valueOf_eq_nan_iff a).mpr ha]
    exact isNaN_quietNaN .mul a b
  · exact isNaN_fmul_right a hb

theorem isNaN_fdiv_of_nan {a b : Word} (h : isNaN a = true ∨ isNaN b = true) : isNaN (fdiv a b) = true := by
  obtain ha | hb := h
  · rw [fdiv, (valueOf_eq_nan_iff a).mpr ha]
    exact isNaN_quietNaN .div a b
  · rw [fdiv, (valueOf_eq_nan_iff b).mpr hb]
    cases valueOf a <;> exact isNaN_quietNaN .div a b

/-- R27, log 11: a sum or difference of two infinities, by the sign each term enters with. -/
theorem addValues_inf_inf (o : FOp) (a b : Word) (s t : Bool) :
    (s ≠ t → isNaN (addValues o a b (.inf s) (.inf t)) = true) ∧
    (s = t → valueOf (addValues o a b (.inf s) (.inf t)) = .inf s) := by
  rw [addValues]
  exact ⟨fun h => by rw [if_neg h, isNaN_quietNaN], fun h => by rw [if_pos h, valueOf_infinity]⟩

end Sys2Proof.Machine

namespace Sys2Proof

open Machine

/-- Settles O42: the arms of the four operations, by the values of their operands. -/
theorem floatExceptionalResults : Obligations.FloatExceptionalResults := by
  refine ⟨fun a b hnan => ?_, fun a b s t ha hb => ?_, fun a b s t n ha hb => ?_, fun a b s t m ha hb => ?_⟩
  · exact ⟨isNaN_fadd_of_nan hnan, isNaN_fsub_of_nan hnan, isNaN_fmul_of_nan hnan, isNaN_fdiv_of_nan hnan⟩
  · obtain ⟨hunlike, hlike⟩ := addValues_inf_inf .add a b s t
    obtain ⟨hunlike', hlike'⟩ := addValues_inf_inf .sub a b s (!t)
    simp only [fadd, fsub, fmul, fdiv, ha, hb, FVal.negate_inf]
    exact ⟨hunlike, hlike, fun h => hunlike' (h ▸ Bool.self_ne_not s), fun h => hlike' (Bool.eq_not.mpr h),
      valueOf_infinity _, isNaN_quietNaN _ _ _⟩
  · have hzero (neg : Bool) : valueOf (packSign neg 0) = .fin neg 0 := valueOf_packSign neg (by decide)
    simp only [fadd, fsub, fmul, fdiv, ha, hb, FVal.negate_inf, FVal.negate_fin, addValues, valueOf_infinity,
      Bool.xor_comm t s, hzero, true_and, and_true]
    exact ⟨fun h => by simp [h], fun h => by simp [h]⟩
  · simp only [fdiv, ha, hb, if_true]
    exact ⟨fun h => by rw [if_pos h, isNaN_quietNaN], fun h => by rw [if_neg h, valueOf_infinity]⟩

end Sys2Proof
end

section
/-! The derived bounds of R62, R65, R66 and R101: the reciprocals of a probability strictly between 0 and 1, and the
endpoint maps of the two emits. -/

namespace Sys2Proof.Machine

open Safety

/-! ### Operations on patterns of sign bit 0, as numbers -/

theorem fsub_toNat {a b : Word} (ha : a.toNat < infMagnitude) (hlt : b.toNat < a.toNat) :
    (fsub a b).toNat = roundUnits (magOf a.toNat - magOf b.toNat) 1 := by
  rw [fsub_eq_of_roundUnits ha hlt (roundTo_toNat _ _).symm, roundTo_toNat]

theorem magOf_fOne : magOf fOne.toNat = unitsInOne := magOf_one

theorem fdiv_one_toNat {b : Word} (hb : b.toNat < infMagnitude) (hpos : 0 < b.toNat) :
    (fdiv fOne b).toNat = roundUnits (unitsInOne * unitsInOne) (magOf b.toNat) := by
  have hone : fOne.toNat < infMagnitude := by decide
  rw [fdiv_eq_of_roundUnits hone hb hpos (roundTo_toNat _ _).symm, roundTo_toNat, magOf_fOne]

theorem magOf_pos {n : Nat} (h : 0 < n) : 0 < magOf n := magOf_strictMono h

theorem isInf_iff_of_le {b : Word} (hb : b.toNat ≤ infMagnitude) : isInf b = true ↔ b.toNat = infMagnitude := by
  have hinf : infMagnitude < 2 ^ 63 := by decide
  rw [isInf_iff, Nat.mod_eq_of_lt (hb.trans_lt hinf)]

theorem isNaN_eq_false_of_le {b : Word} (hb : b.toNat ≤ infMagnitude) : isNaN b = false := by
  have hinf : infMagnitude < 2 ^ 63 := by decide
  rw [← Bool.not_eq_true, isNaN_iff, Nat.mod_eq_of_lt (hb.trans_lt hinf)]
  exact hb.not_gt

/-! ### Magnitudes near 1.0 and their steps -/

/-- The least weight of a significand below 1.0: `2^-53`. -/
theorem magOf_ulp {k : Nat} (hk : k = 969) : magOf 0x3CA0000000000000 = 2 ^ 52 * 2 ^ k := by
  subst hk
  rw [show (0x3CA0000000000000 : Nat) = 969 * 2 ^ 52 + 2 ^ 52 by norm_num, magOf_pack (.inr le_rfl) (by norm_num)]

theorem unitsInOne_eq_ulp : unitsInOne = 2 ^ 53 * magOf 0x3CA0000000000000 := by
  have hpow {k : Nat} (hk : k = 969) : unitsInOne = 2 ^ 53 * (2 ^ 52 * 2 ^ k) := by
    rw [unitsInOne_eq (k := 53 + (52 + k)) (by omega), pow_add, pow_add]
  rw [magOf_ulp rfl]
  exact hpow rfl

theorem two_pow_52_le_unitsInOne : 2 ^ 52 ≤ unitsInOne := by
  have hulp : 1 ≤ magOf 0x3CA0000000000000 := magOf_pos (by norm_num)
  rw [unitsInOne_eq_ulp]
  exact (show 2 ^ 52 ≤ 2 ^ 53 * 1 by norm_num).trans (Nat.mul_le_mul_left _ hulp)

theorem magOf_below_one : magOf 0x3FEFFFFFFFFFFFFF = (2 ^ 53 - 1) * magOf 0x3CA0000000000000 := by
  rw [show (0x3FEFFFFFFFFFFFFF : Nat) = (52 + 969) * 2 ^ 52 + (2 ^ 53 - 1) by norm_num,
    magOf_pack (.inr (by norm_num)) (by norm_num), magOf_ulp rfl, pow_add 2 52 969]

theorem magOf_above_one : magOf 0x3FF0000000000001 = (2 ^ 53 + 2) * magOf 0x3CA0000000000000 := by
  rw [show (0x3FF0000000000001 : Nat) = (1 + (52 + 969)) * 2 ^ 52 + (2 ^ 52 + 1) by norm_num,
    magOf_pack (.inr (by norm_num)) (by norm_num), magOf_ulp rfl, pow_add 2 1, pow_add 2 52 969]
  generalize 2 ^ 969 = weight
  ring

theorem magOf_two_pow_53 : magOf 0x4340000000000000 = 2 ^ 53 * unitsInOne := by
  rw [show (0x4340000000000000 : Nat) = (1 + 1074) * 2 ^ 52 + 2 ^ 52 by norm_num,
    magOf_pack (.inr le_rfl) (by norm_num), unitsInOne_eq (k := 1074) rfl, pow_add 2 1 1074]
  generalize 2 ^ 1074 = weight
  ring

theorem magOf_two_pow_50 : magOf 0x0004000000000000 = 2 ^ 50 := by norm_num [magOf]

/-- Neighbouring magnitudes differ by at least one part in `2^53` of the greater. -/
theorem magOf_relative_step {a b : Nat} (hlt : a < b) : 2 ^ 53 * magOf a ≤ (2 ^ 53 - 1) * magOf b := by
  have hstep (n : Nat) : 2 ^ 53 * magOf n ≤ (2 ^ 53 - 1) * magOf (n + 1) := by
    obtain ⟨k, m, rfl, hk, hm⟩ := exists_pack n
    rw [Nat.add_assoc, magOf_pack hk hm.le, magOf_pack (hk.imp_right Nat.le_succ_of_le) hm, ← mul_assoc, ← mul_assoc]
    exact Nat.mul_le_mul_right _ (by omega)
  exact (hstep a).trans (Nat.mul_le_mul_left _ (magOf_strictMono.monotone hlt))

/-- Half a step is at most one part in `2^53` of what holds `2^52` steps: rounding down. -/
theorem relative_error_down {a r step : Nat} (hsig : step * 2 ^ 52 ≤ a) (hnear : 2 * r ≤ step) :
    (2 ^ 53 - 1) * (a + r) ≤ 2 ^ 53 * a ∧ 2 ^ 53 * a ≤ (2 ^ 53 + 1) * (a + r) := by
  have hr : 2 ^ 53 * r ≤ a := by
    rw [pow_succ, mul_assoc, mul_comm]
    exact (Nat.mul_le_mul_right _ hnear).trans hsig
  refine ⟨?_, Nat.mul_le_mul (Nat.le_succ _) (Nat.le_add_right _ _)⟩
  rw [Nat.sub_one_mul, mul_add]
  exact Nat.sub_le_of_le_add (Nat.add_le_add_left (hr.trans (Nat.le_add_right _ _)) _)

/-- The same, rounding up. -/
theorem relative_error_up {a r step : Nat} (hsig : step * 2 ^ 52 ≤ a) (hr : r < step) (hnear : step ≤ 2 * r) :
    (2 ^ 53 - 1) * (a + r) ≤ 2 ^ 53 * (a + step) ∧ 2 ^ 53 * (a + step) ≤ (2 ^ 53 + 1) * (a + r) := by
  have hstep : 2 ^ 53 * step ≤ 2 ^ 53 * r + a := by
    rw [pow_succ, mul_assoc, mul_assoc, two_mul step, mul_add, mul_comm _ step]
    exact Nat.add_le_add ((mul_comm step _).trans_le (Nat.mul_le_mul_left _ hnear)) hsig
  refine ⟨Nat.mul_le_mul (Nat.sub_le _ _) (Nat.add_le_add_left hr.le _), ?_⟩
  rw [Nat.add_one_mul, mul_add, mul_add, add_assoc]
  exact Nat.add_le_add_left (hstep.trans (Nat.add_le_add_left (Nat.le_add_right _ _) _)) _

/-- A number of at least `2^52` steps has a significand of full length. -/
theorem significand_of_normal {den k m r : Nat} (hk : k = 0 ∨ 2 ^ 52 ≤ m) (hr : r < den * 2 ^ k)
    (hnormal : 2 ^ 52 * den ≤ den * 2 ^ k * m + r) : 2 ^ 52 ≤ m := by
  obtain rfl | hk := hk
  · by_contra hsmall
    have hle : den * (m + 1) ≤ den * 2 ^ 52 := Nat.mul_le_mul_left _ (by omega)
    rw [pow_zero, mul_one] at hnormal hr
    rw [mul_add] at hle
    omega
  · exact hk

/-- R27: a result in the normal range has a relative error of at most `2^-53`. -/
theorem roundUnits_relative_error {num den : Nat} (hd : 0 < den) (hnormal : 2 ^ 52 * den ≤ num)
    (hlt : roundUnits num den < infMagnitude) :
    (2 ^ 53 - 1) * num ≤ 2 ^ 53 * (magOf (roundUnits num den) * den) ∧
    2 ^ 53 * (magOf (roundUnits num den) * den) ≤ (2 ^ 53 + 1) * num := by
  obtain ⟨k, m, r, m', hround, hk, hm, rfl, hr, hcase⟩ := roundUnits_spec num hd
  have hn : roundUnits (den * 2 ^ k * m + r) den = k * 2 ^ 52 + m' :=
    hround.trans (min_eq_left ((min_lt_iff.mp (hround ▸ hlt)).resolve_right (lt_irrefl _)).le)
  have hm52 := significand_of_normal hk hr hnormal
  have hsig : den * 2 ^ k * 2 ^ 52 ≤ den * 2 ^ k * m := Nat.mul_le_mul_left _ hm52
  have hmag {n : Nat} (hlow : 2 ^ 52 ≤ n) (hhigh : n ≤ 2 ^ 53) : magOf (k * 2 ^ 52 + n) * den = den * 2 ^ k * n := by
    rw [magOf_pack (.inr hlow) hhigh, mul_comm, ← mul_assoc, mul_right_comm]
  rw [hn]
  obtain ⟨rfl, hnear, -⟩ | ⟨rfl, hnear, -⟩ := hcase
  · rw [hmag hm52 hm.le]
    exact relative_error_down hsig hnear
  · rw [hmag (hm52.trans (Nat.le_succ m)) hm, Nat.mul_succ]
    exact relative_error_up hsig hr hnear

/-! ### The reciprocals -/

section

variable {p : Word} (hp : openProbability p)
include hp

theorem pRecip_toNat : (fdiv fOne p).toNat = roundUnits (unitsInOne * unitsInOne) (magOf p.toNat) :=
  fdiv_one_toNat (openProbability_finite hp) hp.1

theorem pRecip_le_inf : (fdiv fOne p).toNat ≤ infMagnitude := by
  rw [pRecip_toNat hp]
  exact roundUnits_le_inf _ _

/-- R62, R101: `1/P` overflows up to `P = 2^-1024`, because the overflow threshold is just below `2^1024`. -/
theorem pRecip_isInf_iff : isInf (fdiv fOne p) = true ↔ p.toNat ≤ 0x0004000000000000 := by
  have hpow {k : Nat} (hk : k = 2045) : 2 * (unitsInOne * unitsInOne) = 2 ^ 104 * 2 ^ k := by
    rw [unitsInOne_eq (k := 1074) rfl, ← pow_add, ← pow_succ', ← pow_add, hk]
  rw [isInf_iff_of_le (pRecip_le_inf hp), pRecip_toNat hp, roundUnits_eq_inf_iff (magOf_pos hp.1), hpow rfl,
    twiceOverflow_eq rfl, mul_right_comm, Nat.mul_le_mul_right_iff (by positivity),
    ← magOf_strictMono.le_iff_le (a := p.toNat), magOf_two_pow_50]
  omega

theorem oneMinus_toNat : (fsub fOne p).toNat = roundUnits (unitsInOne - magOf p.toNat) 1 := by
  rw [fsub_toNat (by decide) hp.2, magOf_fOne]

/-- R62: `1 - P` is at least `2^-53`, the distance from 1.0 to the greatest `P`, and at most 1.0. -/
theorem oneMinus_range : 0x3CA0000000000000 ≤ (fsub fOne p).toNat ∧ (fsub fOne p).toNat ≤ 0x3FF0000000000000 := by
  obtain ⟨hpos, hone⟩ := id hp
  rw [oneMinus_toNat hp]
  constructor
  · have hle : magOf p.toNat ≤ magOf 0x3FEFFFFFFFFFFFFF := magOf_strictMono.monotone (Nat.le_of_lt_succ hone)
    rw [magOf_below_one] at hle
    refine le_roundUnits Nat.one_pos (by decide) ?_
    rw [unitsInOne_eq_ulp]
    omega
  · refine roundUnits_le Nat.one_pos ?_
    rw [magOf_one]
    omega

theorem oneMinus_finite : (fsub fOne p).toNat < infMagnitude :=
  lt_of_le_of_lt (oneMinus_range hp).2 (by decide)

theorem oneMinus_pos : 0 < (fsub fOne p).toNat := lt_of_lt_of_le (by decide) (oneMinus_range hp).1

theorem qRecip_toNat :
    (fdiv fOne (fsub fOne p)).toNat = roundUnits (unitsInOne * unitsInOne) (magOf (fsub fOne p).toNat) :=
  fdiv_one_toNat (oneMinus_finite hp) (oneMinus_pos hp)

theorem oneMinus_magnitude_le : magOf (fsub fOne p).toNat ≤ unitsInOne :=
  magOf_one ▸ magOf_strictMono.monotone (oneMinus_range hp).2

/-- R62: so `1/(1 - P)` lies between 1.0 and `2^53`. -/
theorem qRecip_range : 0x3FF0000000000000 ≤ (fdiv fOne (fsub fOne p)).toNat ∧
    (fdiv fOne (fsub fOne p)).toNat ≤ 0x4340000000000000 := by
  have hpos := magOf_pos (oneMinus_pos hp)
  rw [qRecip_toNat hp]
  constructor
  · refine le_roundUnits hpos (by decide) ?_
    rw [magOf_one]
    exact Nat.mul_le_mul_left _ (oneMinus_magnitude_le hp)
  · refine roundUnits_le hpos ?_
    have hulp : magOf 0x3CA0000000000000 ≤ magOf (fsub fOne p).toNat :=
      magOf_strictMono.monotone (oneMinus_range hp).1
    calc unitsInOne * unitsInOne = 2 ^ 53 * unitsInOne * magOf 0x3CA0000000000000 := by
          nth_rw 2 [unitsInOne_eq_ulp]; ring
      _ ≤ magOf 0x4340000000000000 * magOf (fsub fOne p).toNat := by
          rw [magOf_two_pow_53]; exact Nat.mul_le_mul_left _ hulp

theorem qRecip_finite : (fdiv fOne (fsub fOne p)).toNat < infMagnitude :=
  lt_of_le_of_lt (qRecip_range hp).2 (by decide)

/-! ### The endpoint maps -/

/-- R65: the step from `P` down to the next value outweighs the rounding error of `P_RECIP`. -/
theorem emit1_endpoint_le_one {w : Word} (hw : w.toNat < p.toNat) (hfin : isInf (fdiv fOne p) = false) :
    (fmul w (fdiv fOne p)).toNat ≤ 0x3FF0000000000000 := by
  have hr : (fdiv fOne p).toNat < infMagnitude :=
    lt_of_le_of_ne (pRecip_le_inf hp) fun h => by
      rw [(isInf_iff_of_le (pRecip_le_inf hp)).mpr h] at hfin; cases hfin
  have hpos := magOf_pos hp.1
  have hstep := magOf_relative_step hw
  have hple : magOf p.toNat ≤ unitsInOne := magOf_one ▸ magOf_strictMono.monotone hp.2.le
  have hnormal : 2 ^ 52 * magOf p.toNat ≤ unitsInOne * unitsInOne :=
    Nat.mul_le_mul two_pow_52_le_unitsInOne hple
  have herr := (roundUnits_relative_error hpos hnormal (pRecip_toNat hp ▸ hr)).2
  rw [← pRecip_toNat hp] at herr
  rw [fmul_toNat (hw.trans (openProbability_finite hp)) hr]
  refine roundUnits_le unitsInOne_pos ?_
  rw [magOf_one]
  generalize magOf w.toNat = W at *
  generalize magOf (fdiv fOne p).toNat = R at *
  generalize magOf p.toNat = M at *
  generalize unitsInOne * unitsInOne = V at *
  refine Nat.le_of_mul_le_mul_left ?_ (show 0 < 2 ^ 106 * M by omega)
  calc 2 ^ 106 * M * (W * R) = (2 ^ 53 * W) * (2 ^ 53 * (R * M)) := by ring
    _ ≤ ((2 ^ 53 - 1) * M) * ((2 ^ 53 + 1) * V) := Nat.mul_le_mul hstep herr
    _ = (2 ^ 106 - 1) * (M * V) := by ring
    _ ≤ 2 ^ 106 * (M * V) := Nat.mul_le_mul_right _ (by norm_num)
    _ = 2 ^ 106 * M * V := by ring

/-- R66: the endpoint 1.0 maps to the rounded product of `1 - P` and its rounded reciprocal, which is 1.0 to within one
step. -/
theorem emit0_endpoint_one : 0x3FEFFFFFFFFFFFFF ≤ (fmul (fsub fOne p) (fdiv fOne (fsub fOne p))).toNat ∧
    (fmul (fsub fOne p) (fdiv fOne (fsub fOne p))).toNat ≤ 0x3FF0000000000001 := by
  have hnormal : 2 ^ 52 * magOf (fsub fOne p).toNat ≤ unitsInOne * unitsInOne :=
    Nat.mul_le_mul two_pow_52_le_unitsInOne (oneMinus_magnitude_le hp)
  obtain ⟨hlow, hhigh⟩ :=
    roundUnits_relative_error (magOf_pos (oneMinus_pos hp)) hnormal (qRecip_toNat hp ▸ qRecip_finite hp)
  rw [← qRecip_toNat hp, mul_comm (magOf (fdiv fOne (fsub fOne p)).toNat)] at hlow hhigh
  rw [fmul_toNat (oneMinus_finite hp) (qRecip_finite hp)]
  have hulp : unitsInOne * unitsInOne = 2 ^ 53 * (magOf 0x3CA0000000000000 * unitsInOne) := by
    nth_rw 1 [unitsInOne_eq_ulp]; ring
  constructor
  · refine le_roundUnits unitsInOne_pos (by decide) ?_
    rw [magOf_below_one, mul_assoc]
    omega
  · refine roundUnits_le unitsInOne_pos ?_
    rw [magOf_above_one, mul_assoc]
    omega

end

/-- R66: the difference of a greater and a smaller value is positive, because the least pattern is one unit. -/
theorem fsub_pos_of_fgt {a p : Word} (h : fgt a p = true) : flt fZero (fsub a p) = true := by
  unfold fgt at h
  cases hp : valueOf p with
  | nan => rw [flt_of_nan_left ((valueOf_eq_nan_iff p).mp hp)] at h; cases h
  | inf t =>
    cases ha : valueOf a with
    | nan => rw [flt_of_nan_right p ((valueOf_eq_nan_iff a).mp ha)] at h; cases h
    | inf s =>
      rw [flt, hp, ha] at h
      obtain ⟨rfl, rfl⟩ : t = true ∧ s = false := by simpa using h
      simp [flt, fsub, ha, hp, addValues, FVal.negate_inf]
    | fin s m =>
      rw [flt, hp, ha] at h
      subst h
      simp [flt, fsub, ha, hp, addValues, FVal.negate_inf]
  | fin t n =>
    cases ha : valueOf a with
    | nan => rw [flt_of_nan_right p ((valueOf_eq_nan_iff a).mp ha)] at h; cases h
    | inf s =>
      rw [flt, hp, ha] at h
      obtain rfl : s = false := by simpa using h
      simp [flt, fsub, ha, hp, addValues, FVal.negate_fin]
    | fin s m =>
      rw [flt_fin hp ha, decide_eq_true_eq] at h
      obtain ⟨neg, hround, hneg⟩ := fsub_fin ha hp
      have hpos : neg = false := by rw [hneg (by omega)]; exact decide_eq_false (by omega)
      have hle : 1 ≤ roundUnits (signedUnits s m - signedUnits t n).natAbs 1 :=
        le_roundUnits Nat.one_pos (by decide) (by rw [show magOf 1 = 1 from rfl]; omega)
      rw [hround, hpos, flt_eq_toNat_lt (by decide) (by rw [roundTo_toNat]; exact roundUnits_le_inf _ _),
        roundTo_toNat, decide_eq_true_eq]
      exact hle

end Sys2Proof.Machine

namespace Sys2Proof

open Machine Safety

/-- Settles O8: `P_RECIP` against the overflow threshold, `1 - P` and `Q_RECIP` between representable bounds. -/
theorem reciprocalRange : Obligations.ReciprocalRange := fun _ hp =>
  ⟨pRecip_isInf_iff hp, isNaN_eq_false_of_le (pRecip_le_inf hp), (oneMinus_range hp).1, (oneMinus_range hp).2,
    (qRecip_range hp).1, (qRecip_range hp).2⟩

/-- Settles O15: an endpoint below `P` is at least one step below it. -/
theorem emit1KeepsIntervalBelowOne : Obligations.Emit1KeepsIntervalBelowOne := by
  intro p w hp hw hlt hfin
  have hone : 0x3FF0000000000000 ≤ infMagnitude := by decide
  rw [flt_eq_toNat_lt (hw.trans hone) (openProbability_finite hp).le, decide_eq_true_eq] at hlt
  exact emit1_endpoint_le_one hp hlt hfin

/-- Settles O16: the sign of a rounded difference, and the error bound of the reciprocal; the worked example is that of
R66. -/
theorem emit0EndpointMap : Obligations.Emit0EndpointMap := by
  refine ⟨fun _ _ => fsub_pos_of_fgt, fun p hp => ?_, ?_⟩
  · obtain ⟨hlow, hhigh⟩ := emit0_endpoint_one hp
    omega
  · have hrecip : fdiv fOne (fsub fOne 0x3FE8000000000000#64) = 0x4010000000000000#64 := reciprocals_three_quarters.2
    rw [hrecip]
    exact emit0_rescale_three_quarters.2

end Sys2Proof
end
